-- ==== Sys2Proof/Word.lean ====
section
/-! DEFINITION. The words of the core: the widths of R6 and R20-R40, and nothing else.
Everything that computes on them and that a test could show wrong stands under Machine/ or in Decode.lean. -/

namespace Sys2Proof

/-- A memory byte, a V register or a timer: 8 bits (R20, R36, R37). -/
abbrev Byte := BitVec 8

/-- PC, I, a call-stack entry or an instruction word: 16 bits (R26, R29, R33, R90). -/
abbrev Word := BitVec 16

/-- The 12-bit address field NNN of an instruction word (R91). -/
abbrev Addr := BitVec 12

/-- A register number 0..15: every value names a V register (R20). A hex key code has the same range (R42). -/
abbrev Reg := Fin 16

/-- The register that doubles as the flag: VF = V[15] (R24). -/
abbrev Reg.vf : Reg := 15

/-- The keypad state register K: bit c is 1 iff hex key c is pressed (R42). -/
abbrev Keypad := BitVec 16

/-- The frame buffer FB: bit k is cell k, so each of the 2048 cells holds exactly 0 or 1 (R40). -/
abbrev Frame := BitVec 2048

end Sys2Proof
end

