-- ==== Sys2Proof/Syntax.lean ====
section
/-! DEFINITION. The instructions: one constructor per row of spec/opcode_table.json, in the table's
order (R96). Fields are those of R91: X and Y as register numbers, NN, NNN and N as unsigned values. -/

namespace Sys2Proof

inductive Instr where
  /-- 0NNN, SYS NNN (R125): never 0x00E0 or 0x00EE, which are CLS and RET (R94). -/
  | sys (nnn : Addr)
  /-- 00E0, CLS (R150). -/
  | cls
  /-- 00EE, RET (R127). -/
  | ret
  /-- 1NNN, JP NNN (R129). -/
  | jp (nnn : Addr)
  /-- 2NNN, CALL NNN (R131). -/
  | call (nnn : Addr)
  /-- 3XNN, SE Vx, NN (R133). -/
  | seByte (x : Reg) (nn : Byte)
  /-- 4XNN, SNE Vx, NN (R135). -/
  | sneByte (x : Reg) (nn : Byte)
  /-- 5XY0, SE Vx, Vy (R137). -/
  | seReg (x y : Reg)
  /-- 6XNN, LD Vx, NN (R170). -/
  | ldByte (x : Reg) (nn : Byte)
  /-- 7XNN, ADD Vx, NN (R171). -/
  | addByte (x : Reg) (nn : Byte)
  /-- 8XY0, LD Vx, Vy (R172). -/
  | ldReg (x y : Reg)
  /-- 8XY1, OR Vx, Vy (R173). -/
  | orReg (x y : Reg)
  /-- 8XY2, AND Vx, Vy (R174). -/
  | andReg (x y : Reg)
  /-- 8XY3, XOR Vx, Vy (R175). -/
  | xorReg (x y : Reg)
  /-- 8XY4, ADD Vx, Vy (R176). -/
  | addReg (x y : Reg)
  /-- 8XY5, SUB Vx, Vy (R177). -/
  | subReg (x y : Reg)
  /-- 8XY6, SHR Vx, Vy (R181). -/
  | shr (x y : Reg)
  /-- 8XY7, SUBN Vx, Vy (R183). -/
  | subn (x y : Reg)
  /-- 8XYE, SHL Vx, Vy (R186). -/
  | shl (x y : Reg)
  /-- 9XY0, SNE Vx, Vy (R139). -/
  | sneReg (x y : Reg)
  /-- ANNN, LD I, NNN (R210). -/
  | ldI (nnn : Addr)
  /-- BNNN, JP V0, NNN (R141). -/
  | jpV0 (nnn : Addr)
  /-- CXNN, RND Vx, NN (R187). -/
  | rnd (x : Reg) (nn : Byte)
  /-- DXYN, DRW Vx, Vy, N (R151): n rows, 0..15. -/
  | drw (x y : Reg) (n : Fin 16)
  /-- EX9E, SKP Vx (R240). -/
  | skp (x : Reg)
  /-- EXA1, SKNP Vx (R241). -/
  | sknp (x : Reg)
  /-- FX07, LD Vx, DT (R243). -/
  | ldVxDt (x : Reg)
  /-- FX0A, LD Vx, K (R244). -/
  | ldVxK (x : Reg)
  /-- FX15, LD DT, Vx (R247). -/
  | ldDtVx (x : Reg)
  /-- FX18, LD ST, Vx (R248). -/
  | ldStVx (x : Reg)
  /-- FX1E, ADD I, Vx (R211). -/
  | addIVx (x : Reg)
  /-- FX29, LD F, Vx (R212). -/
  | ldFVx (x : Reg)
  /-- FX33, LD B, Vx (R214). -/
  | ldBVx (x : Reg)
  /-- FX55, LD [I], Vx (R216). -/
  | ldMemVx (x : Reg)
  /-- FX65, LD Vx, [I] (R219). -/
  | ldVxMem (x : Reg)
  deriving DecidableEq, Repr

end Sys2Proof
end

