-- ==== Sys2Proof/Decode.lean ====
section
/-! DEFINITION. The encoding: the fields of a word (R91), the decoder (R94), total on any word and
any bytes and rejecting by name, and after it the encoder, written from the formats of R92 and the rows of R96. -/

namespace Sys2Proof

/-- Why bytes are no instruction: the families of illegal words of R97, and too few bytes for a word. -/
inductive Reject where
  /-- 5XYN with N ≠ 0. -/
  | seRegFunction
  /-- 8XYN with N in 8..D or F. -/
  | aluFunction
  /-- 9XYN with N ≠ 0. -/
  | sneRegFunction
  /-- EXNN with NN neither 9E nor A1. -/
  | keyFunction
  /-- FXNN with NN none of the nine function bytes. -/
  | miscFunction
  /-- Fewer than two bytes: every instruction is exactly one 16-bit word (R90). -/
  | truncated
  deriving DecidableEq, Repr

/-! ### Byte order (R63): the byte at the lower address is the high byte -/

/-- The word of a high and a low byte. -/
def wordOfBytes (hi lo : Byte) : Word := hi ++ lo

/-- w[15:8]. -/
def highByte (w : Word) : Byte := w.extractLsb' 8 8

/-- w[7:0]. -/
def lowByte (w : Word) : Byte := w.extractLsb' 0 8

/-! ### The fields of a word (R91) -/

/-- op = w[15:12]. -/
def fieldOp (w : Word) : BitVec 4 := w.extractLsb' 12 4

/-- X = w[11:8], a register number. -/
def fieldX (w : Word) : Reg := (w.extractLsb' 8 4).toFin

/-- Y = w[7:4], a register number. -/
def fieldY (w : Word) : Reg := (w.extractLsb' 4 4).toFin

/-- N = w[3:0]. -/
def fieldN (w : Word) : BitVec 4 := w.extractLsb' 0 4

/-- NN = w[7:0]. -/
def fieldNN (w : Word) : Byte := w.extractLsb' 0 8

/-- NNN = w[11:0]. -/
def fieldNNN (w : Word) : Addr := w.extractLsb' 0 12

/-! ### The decoder (R94), class by class -/

/-- Class 0x0: the exact patterns 00E0 and 00EE take precedence over 0NNN. -/
def decodeClass0 (w : Word) : Instr :=
  if w = 0x00E0#16 then .cls
  else if w = 0x00EE#16 then .ret
  else .sys (fieldNNN w)

/-- Class 0x8: N selects the function. -/
def decodeAlu (x y : Reg) (n : Nat) : Except Reject Instr :=
  match n with
  | 0x0 => .ok (.ldReg x y)
  | 0x1 => .ok (.orReg x y)
  | 0x2 => .ok (.andReg x y)
  | 0x3 => .ok (.xorReg x y)
  | 0x4 => .ok (.addReg x y)
  | 0x5 => .ok (.subReg x y)
  | 0x6 => .ok (.shr x y)
  | 0x7 => .ok (.subn x y)
  | 0xE => .ok (.shl x y)
  | _ => .error .aluFunction

/-- Class 0xE: NN selects the function. -/
def decodeKey (x : Reg) (nn : Nat) : Except Reject Instr :=
  match nn with
  | 0x9E => .ok (.skp x)
  | 0xA1 => .ok (.sknp x)
  | _ => .error .keyFunction

/-- Class 0xF: NN selects the function. -/
def decodeMisc (x : Reg) (nn : Nat) : Except Reject Instr :=
  match nn with
  | 0x07 => .ok (.ldVxDt x)
  | 0x0A => .ok (.ldVxK x)
  | 0x15 => .ok (.ldDtVx x)
  | 0x18 => .ok (.ldStVx x)
  | 0x1E => .ok (.addIVx x)
  | 0x29 => .ok (.ldFVx x)
  | 0x33 => .ok (.ldBVx x)
  | 0x55 => .ok (.ldMemVx x)
  | 0x65 => .ok (.ldVxMem x)
  | _ => .error .miscFunction

/-- decode(w): a function of the word alone (R94, R95). The last class is 0xF: op has 4 bits. -/
def decode (w : Word) : Except Reject Instr :=
  match (fieldOp w).toNat with
  | 0x0 => .ok (decodeClass0 w)
  | 0x1 => .ok (.jp (fieldNNN w))
  | 0x2 => .ok (.call (fieldNNN w))
  | 0x3 => .ok (.seByte (fieldX w) (fieldNN w))
  | 0x4 => .ok (.sneByte (fieldX w) (fieldNN w))
  | 0x5 => if fieldN w = 0 then .ok (.seReg (fieldX w) (fieldY w)) else .error .seRegFunction
  | 0x6 => .ok (.ldByte (fieldX w) (fieldNN w))
  | 0x7 => .ok (.addByte (fieldX w) (fieldNN w))
  | 0x8 => decodeAlu (fieldX w) (fieldY w) (fieldN w).toNat
  | 0x9 => if fieldN w = 0 then .ok (.sneReg (fieldX w) (fieldY w)) else .error .sneRegFunction
  | 0xA => .ok (.ldI (fieldNNN w))
  | 0xB => .ok (.jpV0 (fieldNNN w))
  | 0xC => .ok (.rnd (fieldX w) (fieldNN w))
  | 0xD => .ok (.drw (fieldX w) (fieldY w) (fieldN w).toFin)
  | 0xE => decodeKey (fieldX w) (fieldNN w).toNat
  | _ => decodeMisc (fieldX w) (fieldNN w).toNat

/-- The decoder on bytes as memory holds them: it always consumes exactly two (R90), the high byte
first (R63), and answers the instruction with the bytes after it. -/
def decodeBytes (bs : List Byte) : Except Reject (Instr × List Byte) :=
  match bs with
  | hi :: lo :: rest =>
    match decode (wordOfBytes hi lo) with
    | .ok i => .ok (i, rest)
    | .error r => .error r
  | _ => .error .truncated

/-- The host's reading of the decoder: the instruction whose bits, numbered as spec/opcode_table.json
numbers them, are w. An instruction is one word, so the table's numbering is the word's own (R7). -/
def decodeTableWord (nbits w : Nat) : Option Instr :=
  let word := BitVec.ofNat 16 (w % 2 ^ nbits)
  match decodeBytes [highByte word, lowByte word] with
  | .ok (i, _) => some i
  | .error _ => none

/-! ### The encoder (R92, R96) -/

/-- A register number, or a row count, as the 4 bits of its field. -/
def nibble (x : Fin 16) : BitVec 4 := BitVec.ofFin x

/-- Format A: op[15:12] NNN[11:0]. -/
def formatA (op : BitVec 4) (nnn : Addr) : Word := op ++ nnn

/-- Format B: op[15:12] X[11:8] NN[7:0]; format D is the same layout with a function byte. -/
def formatB (op : BitVec 4) (x : Reg) (nn : Byte) : Word := op ++ nibble x ++ nn

/-- Format C: op[15:12] X[11:8] Y[7:4] N[3:0]. -/
def formatC (op : BitVec 4) (x y : Reg) (n : BitVec 4) : Word := op ++ nibble x ++ nibble y ++ n

/-- The word of an instruction. -/
def encode (i : Instr) : Word :=
  match i with
  | .sys nnn => formatA 0x0#4 nnn
  | .cls => 0x00E0#16
  | .ret => 0x00EE#16
  | .jp nnn => formatA 0x1#4 nnn
  | .call nnn => formatA 0x2#4 nnn
  | .seByte x nn => formatB 0x3#4 x nn
  | .sneByte x nn => formatB 0x4#4 x nn
  | .seReg x y => formatC 0x5#4 x y 0x0#4
  | .ldByte x nn => formatB 0x6#4 x nn
  | .addByte x nn => formatB 0x7#4 x nn
  | .ldReg x y => formatC 0x8#4 x y 0x0#4
  | .orReg x y => formatC 0x8#4 x y 0x1#4
  | .andReg x y => formatC 0x8#4 x y 0x2#4
  | .xorReg x y => formatC 0x8#4 x y 0x3#4
  | .addReg x y => formatC 0x8#4 x y 0x4#4
  | .subReg x y => formatC 0x8#4 x y 0x5#4
  | .shr x y => formatC 0x8#4 x y 0x6#4
  | .subn x y => formatC 0x8#4 x y 0x7#4
  | .shl x y => formatC 0x8#4 x y 0xE#4
  | .sneReg x y => formatC 0x9#4 x y 0x0#4
  | .ldI nnn => formatA 0xA#4 nnn
  | .jpV0 nnn => formatA 0xB#4 nnn
  | .rnd x nn => formatB 0xC#4 x nn
  | .drw x y n => formatC 0xD#4 x y (nibble n)
  | .skp x => formatB 0xE#4 x 0x9E#8
  | .sknp x => formatB 0xE#4 x 0xA1#8
  | .ldVxDt x => formatB 0xF#4 x 0x07#8
  | .ldVxK x => formatB 0xF#4 x 0x0A#8
  | .ldDtVx x => formatB 0xF#4 x 0x15#8
  | .ldStVx x => formatB 0xF#4 x 0x18#8
  | .addIVx x => formatB 0xF#4 x 0x1E#8
  | .ldFVx x => formatB 0xF#4 x 0x29#8
  | .ldBVx x => formatB 0xF#4 x 0x33#8
  | .ldMemVx x => formatB 0xF#4 x 0x55#8
  | .ldVxMem x => formatB 0xF#4 x 0x65#8

/-- The bytes of an instruction as memory holds them, the high byte first (R63). -/
def encodeBytes (i : Instr) : List Byte := [highByte (encode i), lowByte (encode i)]

end Sys2Proof
end

