-- ==== Sys2Proof/Config.lean ====
section
/-! DEFINITION. What is fixed for a run: the implementation parameters of R6, and the free value of the model. -/

namespace Sys2Proof

/-- MEM_SIZE: memory has 4096 bytes, at addresses 0x000-0xFFF (R6, R36). -/
abbrev memSize : Nat := 4096

/-- ROM_BASE: where the ROM is loaded and where execution starts (R6, R51). -/
abbrev romBase : Nat := 0x200

/-- ROM_MAX: the longest ROM that loads, 4096 - 0x200 bytes (R6, R314). -/
abbrev romMax : Nat := 3584

/-- DISP_W: the frame buffer has 64 columns (R6, R40). -/
abbrev dispW : Nat := 64

/-- DISP_H: the frame buffer has 32 rows (R6, R40). -/
abbrev dispH : Nat := 32

/-- SHIFT_QUIRK: the source of the shifted value in 8XY6 and 8XYE (R180). -/
inductive ShiftQuirk where
  /-- TABLE, the default: the original Vy is shifted. -/
  | table
  /-- IN_PLACE: the original Vx is shifted. -/
  | inPlace
  deriving DecidableEq, Repr

/-- The OPEN parameters of R6: arguments of the model, fixed for a run. -/
structure Config where
  /-- STACK_DEPTH: none (unbounded) or some d; the spec gives it no default (R6). -/
  stackDepth : Option Nat
  /-- SHIFT_QUIRK (R180). -/
  shiftQuirk : ShiftQuirk
  /-- LS_ADVANCE_I: whether FX55 and FX65 advance I (R215). -/
  lsAdvanceI : Bool
  /-- FONT_IMAGE: bytes that reset writes at address 0, or none (R51). -/
  fontImage : Option (List Byte)
  deriving DecidableEq, Repr

/-- The default configuration of R6, "the hardware". STACK_DEPTH has no default there:
DESIGN CHOICE, none (log entry 2), the value spec/95_test_vectors.md takes where it names no bound. -/
def Config.hardware : Config :=
  { stackDepth := none, shiftQuirk := .table, lsAdvanceI := true, fontImage := none }

/-- The byte that draw number n of the random input gives when the host has put none on it: any
byte, with no law between draws (R187). A free value (log entry 3): it has no body to compute with. -/
opaque Config.freeByte : Nat → Byte

end Sys2Proof
end

