-- ==== Sys2Proof/Machine/State.lean ====
section
/-! DEFINITION. The state of the core, as plain data: the ten elements of the spec's inventory
(10_state.md section 1), then the model's own four fields: the parameters of R6, the events still
to be delivered, and the random input. Also the reasons a step can stop, and the state after reset. -/

namespace Sys2Proof.Machine

/-! ### Faults, as the spec has them: a value of the run state -/

/-- The kinds of fault (R31, R271). -/
inductive FaultKind where
  | decodeError
  | stackUnderflow
  | outOfBounds
  | stackOverflow
  deriving DecidableEq, Repr

/-- The fault record of FAULTED(info) (R31). -/
structure FaultInfo where
  /-- What happened. -/
  kind : FaultKind
  /-- The address of the first byte of the faulting instruction. -/
  pc : Word
  /-- The instruction word, or none when the fetch itself faulted. -/
  opcode : Option Word
  /-- The out-of-range address of an OutOfBounds fault, none otherwise; an unbounded integer (R60). -/
  addr : Option Nat
  deriving DecidableEq, Repr

/-- The run state (R30). -/
inductive RunState where
  /-- RUNNING: the next cycle fetches an instruction. -/
  | running
  /-- WAIT_KEY(x): an FX0A instruction waits for a key and will write Vx. -/
  | waitKey (x : Reg)
  /-- FAULTED(info): a fault has stopped the core; only reset leaves it (R32). -/
  | faulted (info : FaultInfo)
  deriving DecidableEq, Repr

/-- What a `raise` reports before it is turned into a fault record (R9, R272). -/
inductive Raise where
  | decodeError
  | stackUnderflow
  /-- The first out-of-range address the instruction reaches. -/
  | outOfBounds (a : Nat)
  | stackOverflow
  deriving DecidableEq, Repr

/-! ### Events: the atomic transactions at the core's ports (R46-R50, R281, R286) -/

/-- One step of one agent. Each falls between instructions, never inside one (R72). -/
inductive Event where
  /-- The strobe `cycle`: the processor runs one ExecuteCycle (R120). -/
  | cycle
  /-- The delay timer's tick (R281). -/
  | tickDt
  /-- The sound timer's tick (R281). -/
  | tickSt
  /-- The host presses key c; any code may be sent (R47). -/
  | keyEnable (c : Nat)
  /-- The host releases key c; any code may be sent (R47). -/
  | keyDisable (c : Nat)
  /-- The host clears ST (R49). -/
  | stClear
  /-- The host puts a byte on the random input, for a CXNN to come (R50). -/
  | rand (b : Byte)
  /-- The host resets the core and loads a ROM (R310). -/
  | reset (rom : List Byte)
  deriving DecidableEq, Repr

/-! ### The state -/

/-- Memory, as (address, byte) pairs in the canonical form of Memory.wf (Machine/Ops.lean). -/
abbrev Memory := List Host.Cell

/-- The complete state of the core (10_state.md section 1), and the model's own fields after it. -/
structure State where
  /-- V[0..15]: the general registers, VF = V[15] among them (R20). -/
  v : Vector Byte 16
  /-- PC: the program counter (R26). -/
  pc : Word
  /-- I: the index register (R29). -/
  i : Word
  /-- run: RUNNING, WAIT_KEY(x) or FAULTED(info) (R30). -/
  run : RunState
  /-- The call stack of return addresses, top last (R33). -/
  stack : List Word
  /-- M[0..4095] (R36). -/
  mem : Memory
  /-- DT: the delay timer (R37). -/
  dt : Byte
  /-- ST: the sound timer (R37). -/
  st : Byte
  /-- FB[0..2047]: bit k is cell k = row * 64 + col (R40). -/
  fb : Frame
  /-- K[0..15]: bit c is key c (R42). -/
  keys : Keypad
  /-- The model's own: the parameters of R6, fixed for a run (log entry 1). -/
  cfg : Config
  /-- The model's own: the agents' next steps, first to come first. When it is empty the
  processor's cycles follow one another (log entry 4). -/
  schedule : List Event
  /-- The model's own: the bytes the host has put on the random input and no CXNN has drawn yet (log entry 3). -/
  rand : List Byte
  /-- The model's own: how many draws have been made; it numbers the free bytes (log entry 3). -/
  draws : Nat
  deriving DecidableEq, Repr

/-! ### How a step can stop -/

/-- Reasons for Host.Outcome.fault. There is none: every fault the spec describes is a NEXT state in
which run = FAULTED(info) (R272), and the machine goes on from it (R274). Raised by nothing; safe. -/
inductive Fault where
  deriving DecidableEq, Repr

/-- Reasons for Host.Outcome.refused. -/
inductive Refusal where
  /-- An instruction that has no meaning yet, by its mnemonic. Raised by no arm of exec: each has its
  meaning. Safe: the model would stop where the hardware goes on. -/
  | notModelled (mnemonic : String)
  deriving DecidableEq, Repr

/-- What a step of this machine answers. -/
abbrev Answer := Host.Outcome State Fault Refusal

/-! ### Reset -/

/-- The machine right after reset in the default configuration, with no ROM loaded (R51): every
element at the value of R51's table, memory all zero and so with nothing listed. The four fields of
the model's own: log entries 1 to 4. -/
def State.reset : State :=
  { v := Vector.replicate 16 0
    pc := 0x0200#16
    i := 0x0000#16
    run := .running
    stack := []
    mem := []
    dt := 0x00#8
    st := 0x00#8
    fb := 0
    keys := 0
    cfg := Config.hardware
    schedule := []
    rand := []
    draws := 0 }

end Sys2Proof.Machine
end

