-- ==== Sys2Proof/WellFormed.lean ====
section
/-! DEFINITION. Which terms stand for something the spec has: an instruction with words of its own,
and a configuration within the ranges of R6. (A memory's canonical form is Memory.wf, in Machine/Ops.lean.) -/

namespace Sys2Proof

/-- An instruction has an encoding of its own. The one bound the fields' types do not carry:
0NNN means every 0x0nnn other than 0x00E0 and 0x00EE (R94). -/
def Instr.wf (i : Instr) : Bool :=
  match i with
  | .sys nnn => nnn != 0x0E0#12 && nnn != 0x0EE#12
  | .cls => true
  | .ret => true
  | .jp _ => true
  | .call _ => true
  | .seByte _ _ => true
  | .sneByte _ _ => true
  | .seReg _ _ => true
  | .ldByte _ _ => true
  | .addByte _ _ => true
  | .ldReg _ _ => true
  | .orReg _ _ => true
  | .andReg _ _ => true
  | .xorReg _ _ => true
  | .addReg _ _ => true
  | .subReg _ _ => true
  | .shr _ _ => true
  | .subn _ _ => true
  | .shl _ _ => true
  | .sneReg _ _ => true
  | .ldI _ => true
  | .jpV0 _ => true
  | .rnd _ _ => true
  | .drw _ _ _ => true
  | .skp _ => true
  | .sknp _ => true
  | .ldVxDt _ => true
  | .ldVxK _ => true
  | .ldDtVx _ => true
  | .ldStVx _ => true
  | .addIVx _ => true
  | .ldFVx _ => true
  | .ldBVx _ => true
  | .ldMemVx _ => true
  | .ldVxMem _ => true

/-- A configuration within R6: a bounded stack holds at least one entry, and a font image
fits the range 0x000-0x1FF below the ROM (R310). -/
def Config.wf (c : Config) : Bool :=
  (match c.stackDepth with
   | none => true
   | some d => decide (1 ≤ d)) &&
  (match c.fontImage with
   | none => true
   | some f => decide (f.length ≤ romBase))

end Sys2Proof
end

