-- ==== Sys2Proof/Machine/Ops.lean ====
section
/-! DEFINITION. The named operations on memory, registers, the call stack, the timers and the
keypad (the primitives of R9), the random draw, and raising a fault (R272), said once. -/

namespace Sys2Proof.Machine

/-! ### Memory (20_memory.md) -/

/-- What an address that is not listed reads as: reset zero-fills memory (R51, R310). -/
def Memory.unlisted : Byte := 0x00#8

/-- M[a]. -/
def Memory.read (m : Memory) (a : Nat) : Byte :=
  match m with
  | [] => Memory.unlisted
  | (b, w) :: rest => if a = b then w else Memory.read rest a

/-- The list with a cell put in front of it, unless its byte is what an unlisted address reads as. -/
def Memory.consCell (a : Nat) (v : Byte) (m : Memory) : Memory :=
  if v = Memory.unlisted then m else (a, v) :: m

/-- M[a] <- v, keeping the canonical form. -/
def Memory.write (m : Memory) (a : Nat) (v : Byte) : Memory :=
  match m with
  | [] => Memory.consCell a v []
  | (b, w) :: rest =>
    if a < b then Memory.consCell a v ((b, w) :: rest)
    else if a = b then Memory.consCell a v rest
    else (b, w) :: Memory.write rest a v

/-- The bytes of a list at a and the addresses after it, in rising order. -/
def Memory.writeBytes (m : Memory) (a : Nat) (bs : List Byte) : Memory :=
  match bs with
  | [] => m
  | b :: rest => Memory.writeBytes (m.write a b) (a + 1) rest

/-- The canonical form from address lo on: addresses strictly rising and below MEM_SIZE, and no
listed byte equal to what an unlisted address reads as. -/
def Memory.wfFrom (lo : Nat) (m : Memory) : Bool :=
  match m with
  | [] => true
  | (a, v) :: rest => decide (lo ≤ a) && decide (a < memSize) && decide (v ≠ Memory.unlisted) && Memory.wfFrom (a + 1) rest

/-- The canonical form of memory: equal memories are equal lists. -/
def Memory.wf (m : Memory) : Bool := Memory.wfFrom 0 m

/-- MemRead(a, 1): an address is an unbounded integer, checked and not masked (R60, R61). -/
def memRead (m : Memory) (a : Nat) : Except Raise Byte :=
  if memSize ≤ a then .error (.outOfBounds a) else .ok (m.read a)

/-- MemWrite(a, 1, v) (R62). -/
def memWrite (m : Memory) (a : Nat) (v : Byte) : Except Raise Memory :=
  if memSize ≤ a then .error (.outOfBounds a) else .ok (m.write a v)

/-- MemRead(a + k, 1) for k = 0 .. n-1, ascending: the first address out of range is the one reported (R65, R276). -/
def loadBytes (m : Memory) (a n : Nat) : Except Raise (List Byte) :=
  match n with
  | 0 => .ok []
  | n + 1 => do
    let b ← memRead m a
    let rest ← loadBytes m (a + 1) n
    .ok (b :: rest)

/-- MemWrite(a + k, 1, v_k) for the bytes of a list, ascending (R65, R276). -/
def storeBytes (m : Memory) (a : Nat) (bs : List Byte) : Except Raise Memory :=
  match bs with
  | [] => .ok m
  | b :: rest => do
    let m' ← memWrite m a b
    storeBytes m' (a + 1) rest

/-! ### Registers: each has one home, written here only (R9) -/

/-- V[x] <- b. -/
def State.setReg (s : State) (x : Reg) (b : Byte) : State := { s with v := s.v.set x.val b x.isLt }

/-- V[k], V[k+1], ... <- the bytes of a list, in rising order, as far as there are registers. -/
def writeRegs (v : Vector Byte 16) (k : Nat) (bs : List Byte) : Vector Byte 16 :=
  match bs with
  | [] => v
  | b :: rest => writeRegs (v.setIfInBounds k b) (k + 1) rest

/-- V[0], V[1], ... <- the bytes of a list. -/
def State.setRegs (s : State) (bs : List Byte) : State := { s with v := writeRegs s.v 0 bs }

/-- PC <- target. -/
def State.setPc (s : State) (target : Word) : State := { s with pc := target }

/-- I <- v. -/
def State.setI (s : State) (v : Word) : State := { s with i := v }

/-- DT <- v. -/
def State.setDt (s : State) (v : Byte) : State := { s with dt := v }

/-- ST <- v. -/
def State.setSt (s : State) (v : Byte) : State := { s with st := v }

/-- run <- r. -/
def State.setRun (s : State) (r : RunState) : State := { s with run := r }

/-- stack <- l. -/
def State.setStack (s : State) (l : List Word) : State := { s with stack := l }

/-- M <- m. -/
def State.setMem (s : State) (m : Memory) : State := { s with mem := m }

/-- FB <- f. -/
def State.setFb (s : State) (f : Frame) : State := { s with fb := f }

/-- K <- k. -/
def State.setKeys (s : State) (k : Keypad) : State := { s with keys := k }

/-- The agents' next steps. -/
def State.setSchedule (s : State) (l : List Event) : State := { s with schedule := l }

/-- The random input: the bytes standing on it, and the number of draws made. -/
def State.setRand (s : State) (bs : List Byte) (n : Nat) : State := { s with rand := bs, draws := n }

/-- Skip(): PC <- (PC + 2) mod 2^16, in the execute phase (R124). -/
def State.skip (s : State) : State := s.setPc (s.pc + 2#16)

/-- Skip() when the condition holds. -/
def State.skipIf (s : State) (c : Bool) : State := if c then s.skip else s

/-! ### The call stack (R66, R67): the top is last -/

/-- Push(v). -/
def push (s : State) (v : Word) : Except Raise State :=
  if s.cfg.stackDepth = some s.stack.length then .error .stackOverflow
  else .ok (s.setStack (s.stack ++ [v]))

/-- Pop(): the entry and the state without it. -/
def pop (s : State) : Except Raise (Word × State) :=
  match s.stack.getLast? with
  | none => .error .stackUnderflow
  | some v => .ok (v, s.setStack s.stack.dropLast)

/-! ### Timers, keypad, random input -/

/-- A timer after its tick: it counts down to 0 and stays there (R38, R281). -/
def tick (t : Byte) : Byte := if t = 0x00#8 then t else t - 1#8

/-- Key(c): false for every c that names no key (R42). -/
def keyPressed (k : Keypad) (c : Nat) : Bool := k.getLsbD c

/-- The least pressed key, or none when AnyKey() is false (R43). -/
def lowestKey (k : Keypad) : Option Reg := (List.finRange 16).find? fun c => keyPressed k c.val

/-- K with key c pressed; any c that names no key changes nothing (R47). -/
def pressKey (k : Keypad) (c : Nat) : Keypad := if c < 16 then k ||| BitVec.twoPow 16 c else k

/-- K with key c released; any c that names no key changes nothing (R47). -/
def releaseKey (k : Keypad) (c : Nat) : Keypad := if c < 16 then k &&& ~~~ BitVec.twoPow 16 c else k

/-- The byte the next Rand() gives: the one the host has put on the input, or else a free byte (R187). -/
def State.drawByte (s : State) : Byte :=
  match s.rand with
  | b :: _ => b
  | [] => Config.freeByte s.draws

/-- The state after Rand(): each draw consumes the byte it gave (R50, R187). -/
def State.afterDraw (s : State) : State := s.setRand s.rand.tail (s.draws + 1)

/-! ### Raising a fault (R272), once for every instruction and for the fetch -/

/-- The kind of fault a raise reports (R271). -/
def Raise.kind (r : Raise) : FaultKind :=
  match r with
  | .decodeError => .decodeError
  | .stackUnderflow => .stackUnderflow
  | .outOfBounds _ => .outOfBounds
  | .stackOverflow => .stackOverflow

/-- The address a raise reports: for OutOfBounds only (R31, R271). -/
def Raise.addr (r : Raise) : Option Nat :=
  match r with
  | .decodeError => none
  | .stackUnderflow => none
  | .outOfBounds a => some a
  | .stackOverflow => none

/-- The numeric code of a fault (R271). -/
def FaultKind.code (k : FaultKind) : Nat :=
  match k with
  | .decodeError => 1
  | .stackUnderflow => 2
  | .outOfBounds => 3
  | .stackOverflow => 4

/-- raise E(info): s is the state before the instruction's writes, which are discarded with it; PC
is left at (or put back to) pc0, and run becomes FAULTED(info). Nothing else changes (R272). There is
no return from it beside reset, in Machine/Events.lean (R32, R270, R279). -/
def takeFault (r : Raise) (pc0 : Word) (opcode : Option Word) (s : State) : State :=
  (s.setPc pc0).setRun (.faulted { kind := r.kind, pc := pc0, opcode := opcode, addr := r.addr })

/-- The end of an instruction that may raise: all of its writes, or none of them and the fault (R10,
R272). In the execute phase PC is pc0 + 2 (R122), so pc0 is PC - 2, and the word is the instruction's own. -/
def commit (i : Instr) (s : State) (r : Except Raise State) : Answer :=
  match r with
  | .ok t => .next t
  | .error e => .next (takeFault e (s.pc - 2#16) (some (encode i)) s)

end Sys2Proof.Machine
end

