-- ==== Sys2Proof/Machine/Operands.lean ====
section
/-! DEFINITION. Every operand form of the instruction set: a V register, an immediate, an address
field, the shifted value, and the effective addresses that go through I (R93, R180, R222). -/

namespace Sys2Proof.Machine

/-- V[x]: the register's contents at the start of the instruction (R9, R23). -/
def State.reg (s : State) (x : Reg) : Byte := s.v[x.val]'x.isLt

/-- V[0..x], in rising order: what FX55 stores (R216). -/
def State.regsUpTo (s : State) (x : Reg) : List Byte := s.v.toList.take (x.val + 1)

/-- NNN as an operand: zext_16 (R93). -/
def zextAddr (nnn : Addr) : Word := nnn.setWidth 16

/-- The target of BNNN: V[0] + zext_16(NNN) (R141). -/
def State.jumpV0Target (s : State) (nnn : Addr) : Word := (s.reg 0).setWidth 16 + zextAddr nnn

/-- The value that 8XY6 and 8XYE shift, from the original Vx and Vy (R180). -/
def shiftSource (q : ShiftQuirk) (a b : Byte) : Byte :=
  match q with
  | .table => b
  | .inPlace => a

/-- The address of a data access with offset k: I + k, as an unbounded integer (R60, R222). -/
def State.dataAddr (s : State) (k : Nat) : Nat := s.i.toNat + k

/-- The address of a glyph: V * 5, from the full byte (R212). -/
def fontAddr (b : Byte) : Word := b.setWidth 16 * 5#16

/-- I after a block of n bytes: advanced mod 2^16 if LS_ADVANCE_I, else as it was (R215). -/
def State.advanceI (s : State) (n : Nat) : State :=
  if s.cfg.lsAdvanceI then s.setI (s.i + BitVec.ofNat 16 n) else s

/-- The decimal digits of a byte: hundreds, tens, ones (R214). -/
def bcdDigits (b : Byte) : List Byte :=
  [BitVec.ofNat 8 (b.toNat / 100), BitVec.ofNat 8 (b.toNat / 10 % 10), BitVec.ofNat 8 (b.toNat % 10)]

/-- A key code as a register value (R244). -/
def keyByte (c : Reg) : Byte := BitVec.ofNat 8 c.val

end Sys2Proof.Machine
end

