-- ==== Sys2Proof/Machine/Flags.lean ====
section
/-! DEFINITION. Every flag computation, from the operands' original values (R24, R192), and the one
order in which a result and its flag are written (R25). -/

namespace Sys2Proof.Machine

/-- A flag as VF holds it: 1 or 0. -/
def flagByte (c : Bool) : Byte := if c then 1#8 else 0#8

/-- 8XY4: carry out of bit 7, a + b > 255 (R176). -/
def carryFlag (a b : Byte) : Bool := decide (255 < a.toNat + b.toNat)

/-- 8XY5 with (Vx, Vy), 8XY7 with (Vy, Vx): the minuend is strictly greater (R177, R183). -/
def greaterFlag (a b : Byte) : Bool := decide (b.toNat < a.toNat)

/-- 8XY6: bit 0 of the original Vx (R181). -/
def shrFlag (a : Byte) : Bool := a.getLsbD 0

/-- 8XYE: bit 7 of the original Vx (R186). -/
def shlFlag (a : Byte) : Bool := a.getLsbD 7

/-- V[x] <- result, then VF <- flag: the flag is written last, so with x = F it is what VF holds (R25). -/
def State.setRegFlag (s : State) (x : Reg) (result : Byte) (flag : Bool) : State :=
  (s.setReg x result).setReg Reg.vf (flagByte flag)

end Sys2Proof.Machine
end

