-- ==== Sys2Proof/Machine/Alu.lean ====
section
/-! DEFINITION. The register and ALU instructions (42_alu.md). Results are reduced mod 256 by the
width of a register (R190); operands are read before anything is written (R23). -/

namespace Sys2Proof.Machine

/-- LD Vx, NN (R170). -/
def execLdByte (x : Reg) (nn : Byte) (s : State) : Answer := .next (s.setReg x nn)

/-- ADD Vx, NN: no flag (R171). -/
def execAddByte (x : Reg) (nn : Byte) (s : State) : Answer := .next (s.setReg x (s.reg x + nn))

/-- LD Vx, Vy (R172). -/
def execLdReg (x y : Reg) (s : State) : Answer := .next (s.setReg x (s.reg y))

/-- OR Vx, Vy: VF <- 0 (R173). -/
def execOrReg (x y : Reg) (s : State) : Answer := .next (s.setRegFlag x (s.reg x ||| s.reg y) false)

/-- AND Vx, Vy: VF <- 0 (R174). -/
def execAndReg (x y : Reg) (s : State) : Answer := .next (s.setRegFlag x (s.reg x &&& s.reg y) false)

/-- XOR Vx, Vy: VF <- 0 (R175). -/
def execXorReg (x y : Reg) (s : State) : Answer := .next (s.setRegFlag x (s.reg x ^^^ s.reg y) false)

/-- ADD Vx, Vy: VF <- carry (R176). -/
def execAddReg (x y : Reg) (s : State) : Answer :=
  .next (s.setRegFlag x (s.reg x + s.reg y) (carryFlag (s.reg x) (s.reg y)))

/-- SUB Vx, Vy: VF <- (Vx > Vy) (R177). -/
def execSubReg (x y : Reg) (s : State) : Answer :=
  .next (s.setRegFlag x (s.reg x - s.reg y) (greaterFlag (s.reg x) (s.reg y)))

/-- SHR Vx, Vy: VF <- bit 0 of the original Vx (R181). -/
def execShr (x y : Reg) (s : State) : Answer :=
  .next (s.setRegFlag x (shiftSource s.cfg.shiftQuirk (s.reg x) (s.reg y) >>> 1) (shrFlag (s.reg x)))

/-- SUBN Vx, Vy: VF <- (Vy > Vx) (R183). -/
def execSubn (x y : Reg) (s : State) : Answer :=
  .next (s.setRegFlag x (s.reg y - s.reg x) (greaterFlag (s.reg y) (s.reg x)))

/-- SHL Vx, Vy: VF <- bit 7 of the original Vx (R186). -/
def execShl (x y : Reg) (s : State) : Answer :=
  .next (s.setRegFlag x (shiftSource s.cfg.shiftQuirk (s.reg x) (s.reg y) <<< 1) (shlFlag (s.reg x)))

/-- RND Vx, NN: a fresh draw, masked (R187). -/
def execRnd (x : Reg) (nn : Byte) (s : State) : Answer := .next (s.afterDraw.setReg x (s.drawByte &&& nn))

end Sys2Proof.Machine
end

