-- ==== Sys2Proof/Machine/Control.lean ====
section
/-! DEFINITION. Control transfer (40_control.md): SYS, RET, JP, CALL, the compare-and-skip
instructions and JP V0. Each meaning is the execute phase: PC in its state is pc0 + 2 (R122). -/

namespace Sys2Proof.Machine

/-- SYS NNN: a no-op; NNN is ignored (R125, R98). -/
def execSys (_nnn : Addr) (s : State) : Answer := .next s

/-- RET: PC <- Pop() (R127). -/
def execRet (s : State) : Answer :=
  commit .ret s do
    let (target, t) ← pop s
    .ok (t.setPc target)

/-- JP NNN: PC <- zext_16(NNN) (R129). -/
def execJp (nnn : Addr) (s : State) : Answer := .next (s.setPc (zextAddr nnn))

/-- CALL NNN: Push(PC), then PC <- zext_16(NNN) (R131). -/
def execCall (nnn : Addr) (s : State) : Answer :=
  commit (.call nnn) s do
    let t ← push s s.pc
    .ok (t.setPc (zextAddr nnn))

/-- SE Vx, NN: skip if equal (R133). -/
def execSeByte (x : Reg) (nn : Byte) (s : State) : Answer := .next (s.skipIf (s.reg x == nn))

/-- SNE Vx, NN: skip if different (R135). -/
def execSneByte (x : Reg) (nn : Byte) (s : State) : Answer := .next (s.skipIf (s.reg x != nn))

/-- SE Vx, Vy: skip if equal (R137). -/
def execSeReg (x y : Reg) (s : State) : Answer := .next (s.skipIf (s.reg x == s.reg y))

/-- SNE Vx, Vy: skip if different (R139). -/
def execSneReg (x y : Reg) (s : State) : Answer := .next (s.skipIf (s.reg x != s.reg y))

/-- JP V0, NNN: PC <- V[0] + zext_16(NNN) (R141). -/
def execJpV0 (nnn : Addr) (s : State) : Answer := .next (s.setPc (s.jumpV0Target nnn))

end Sys2Proof.Machine
end

