-- ==== Sys2Proof/Machine/Display.lean ====
section
/-! DEFINITION. The frame buffer and the two instructions that write it (41_display.md): CLS and DRW. -/

namespace Sys2Proof.Machine

/-- Pix(k) (R40). -/
def pix (f : Frame) (k : Nat) : Bool := f.getLsbD k

/-- Pix(k) <- Pix(k) XOR 1 (R154). -/
def toggle (f : Frame) (k : Nat) : Frame := f ^^^ BitVec.twoPow 2048 k

/-- The cell a sprite bit lands on: both coordinates wrap (R155). -/
def cellIndex (row col : Nat) : Nat := row % dispH * dispW + col % dispW

/-- Column c of a sprite byte, 0 being its most significant bit (R153). -/
def spriteBit (b : Byte) (c : Nat) : Bool := b.getLsbD (7 - c)

/-- A frame buffer being drawn on, and whether a collision has occurred so far. -/
abbrev Drawing := Frame × Bool

/-- One sprite bit at cell k: a set bit toggles the cell, and collides if it was on (R154, R156). -/
def plot (bit : Bool) (k : Nat) (d : Drawing) : Drawing :=
  if bit then (toggle d.1 k, d.2 || pix d.1 k) else d

/-- One sprite byte at a row, from its most significant bit (R153). -/
def drawRow (b : Byte) (row xs : Nat) (d : Drawing) : Drawing :=
  (List.range 8).foldl (fun d c => plot (spriteBit b c) (cellIndex row (xs + c)) d) d

/-- The sprite's bytes, a row each, downwards from row ys (R151). -/
def drawRows (sprite : List Byte) (xs ys : Nat) (d : Drawing) : Drawing :=
  match sprite with
  | [] => d
  | b :: rest => drawRows rest xs (ys + 1) (drawRow b ys xs d)

/-- CLS: every cell is off (R150). -/
def execCls (s : State) : Answer := .next (s.setFb 0)

/-- DRW Vx, Vy, N: the sprite's N bytes are at I; the start coordinates are read once, before any
write; VF is written last, 0 if nothing collided (R151, R152, R156-R159). -/
def execDrw (x y : Reg) (n : Fin 16) (s : State) : Answer :=
  commit (.drw x y n) s do
    let sprite ← loadBytes s.mem (s.dataAddr 0) n.val
    let d := drawRows sprite (s.reg x).toNat (s.reg y).toNat (s.fb, false)
    .ok ((s.setFb d.1).setReg Reg.vf (flagByte d.2))

end Sys2Proof.Machine
end

