-- ==== Sys2Proof/Machine/Index.lean ====
section
/-! DEFINITION. The index register and memory instructions (43_index_memory.md). -/

namespace Sys2Proof.Machine

/-- LD I, NNN (R210). -/
def execLdI (nnn : Addr) (s : State) : Answer := .next (s.setI (zextAddr nnn))

/-- ADD I, Vx: mod 2^16, no flag (R211). -/
def execAddIVx (x : Reg) (s : State) : Answer := .next (s.setI (s.i + (s.reg x).setWidth 16))

/-- LD F, Vx: I <- Vx * 5 (R212). -/
def execLdFVx (x : Reg) (s : State) : Answer := .next (s.setI (fontAddr (s.reg x)))

/-- LD B, Vx: the decimal digits at I, I+1, I+2 (R214). -/
def execLdBVx (x : Reg) (s : State) : Answer :=
  commit (.ldBVx x) s do
    let m ← storeBytes s.mem (s.dataAddr 0) (bcdDigits (s.reg x))
    .ok (s.setMem m)

/-- LD [I], Vx: V0..Vx at I and up; I advances if LS_ADVANCE_I (R216). -/
def execLdMemVx (x : Reg) (s : State) : Answer :=
  commit (.ldMemVx x) s do
    let m ← storeBytes s.mem (s.dataAddr 0) (s.regsUpTo x)
    .ok ((s.setMem m).advanceI (x.val + 1))

/-- LD Vx, [I]: V0..Vx from I and up; I advances if LS_ADVANCE_I (R219). -/
def execLdVxMem (x : Reg) (s : State) : Answer :=
  commit (.ldVxMem x) s do
    let bs ← loadBytes s.mem (s.dataAddr 0) (x.val + 1)
    .ok ((s.setRegs bs).advanceI (x.val + 1))

end Sys2Proof.Machine
end

