-- ==== Sys2Proof/Machine/Keypad.lean ====
section
/-! DEFINITION. The keypad and timer instructions (44_keypad_timers.md), and a cycle that waits for a key. -/

namespace Sys2Proof.Machine

/-- SKP Vx: skip if key Vx is pressed; a code above 0xF names no key (R240). -/
def execSkp (x : Reg) (s : State) : Answer := .next (s.skipIf (keyPressed s.keys (s.reg x).toNat))

/-- SKNP Vx: skip if key Vx is not pressed (R241). -/
def execSknp (x : Reg) (s : State) : Answer := .next (s.skipIf (!keyPressed s.keys (s.reg x).toNat))

/-- LD Vx, DT (R243). -/
def execLdVxDt (x : Reg) (s : State) : Answer := .next (s.setReg x s.dt)

/-- LD Vx, K: the least pressed key into Vx if some key is held, else run <- WAIT_KEY(x) (R244). -/
def execLdVxK (x : Reg) (s : State) : Answer :=
  match lowestKey s.keys with
  | some c => .next (s.setReg x (keyByte c))
  | none => .next (s.setRun (.waitKey x))

/-- A cycle in WAIT_KEY(x): no fetch. If some key is held the FX0A is complete and the core is
RUNNING again; otherwise nothing changes (R245). -/
def resumeWait (x : Reg) (s : State) : State :=
  match lowestKey s.keys with
  | some c => (s.setReg x (keyByte c)).setRun .running
  | none => s

/-- LD DT, Vx (R247). -/
def execLdDtVx (x : Reg) (s : State) : Answer := .next (s.setDt (s.reg x))

/-- LD ST, Vx (R248). -/
def execLdStVx (x : Reg) (s : State) : Answer := .next (s.setSt (s.reg x))

end Sys2Proof.Machine
end

