-- ==== Sys2Proof/Machine/Cycle.lean ====
section
/-! DEFINITION. The cycle (40_control.md section 1): what one `cycle` strobe does in each run state. -/

namespace Sys2Proof.Machine

/-- The fetch: the byte at PC, then the byte at PC + 1, as a word (R63, R121). -/
def fetch (s : State) : Except Raise Word := do
  let hi ← memRead s.mem s.pc.toNat
  let lo ← memRead s.mem (s.pc.toNat + 1)
  .ok (wordOfBytes hi lo)

/-- A cycle in RUNNING: fetch, advance PC by 2, decode, execute. A fault of the fetch has no opcode;
a word that decodes to nothing raises DecodeError; either leaves PC where it was (R120, R121, R272). -/
def runCycle (s : State) : Answer :=
  match fetch s with
  | .error e => .next (takeFault e s.pc none s)
  | .ok w =>
    match decode w with
    | .error _ => .next (takeFault .decodeError s.pc (some w) s)
    | .ok i => exec i (s.setPc (s.pc + 2#16))

/-- ExecuteCycle(), by run state (R120): FAULTED changes nothing (R274), WAIT_KEY fetches nothing (R245). -/
def executeCycle (s : State) : Answer :=
  match s.run with
  | .faulted _ => .next s
  | .waitKey x => .next (resumeWait x s)
  | .running => runCycle s

end Sys2Proof.Machine
end

