-- ==== Sys2Proof/Machine/Events.lean ====
section
/-! DEFINITION. The core's ports (10_state.md section 7): the events of the tick agents and of the
host, each one atomic transaction between instructions, and the outputs the host reads. -/

namespace Sys2Proof.Machine

/-! ### Reset and ROM load (R310, R313, R314) -/

/-- Memory after reset: zero-filled, then FONT_IMAGE at 0 (nothing, if there is none), then the ROM at 0x200. -/
def resetMem (c : Config) (rom : List Byte) : Memory :=
  (Memory.writeBytes [] 0 (c.fontImage.getD [])).writeBytes romBase rom

/-- reset(rom) on a core with the parameters and the environment of s: R310 in order; none when the
ROM is too long, and then no state changes (R314). What is the environment's stays: the events and
random bytes still to come, and the number of draws made. -/
def resetRom (rom : List Byte) (s : State) : Option State :=
  if rom.length ≤ romMax then
    some { State.reset with
      mem := resetMem s.cfg rom
      cfg := s.cfg
      schedule := s.schedule
      rand := s.rand
      draws := s.draws }
  else none

/-! ### The events -/

/-- What one event does. -/
def deliver (e : Event) (s : State) : Answer :=
  match e with
  | .cycle => executeCycle s
  | .tickDt => .next (s.setDt (tick s.dt))
  | .tickSt => .next (s.setSt (tick s.st))
  | .keyEnable c => .next (s.setKeys (pressKey s.keys c))
  | .keyDisable c => .next (s.setKeys (releaseKey s.keys c))
  | .stClear => .next (s.setSt 0x00#8)
  | .rand b => .next (s.setRand (s.rand ++ [b]) s.draws)
  | .reset rom => .next ((resetRom rom s).getD s)

/-! ### The outputs -/

/-- The status a cycle returns, read from the state after it (R46). -/
inductive Status where
  | ok
  | needsInput
  | fault (info : FaultInfo)
  deriving DecidableEq, Repr

/-- The status for the run state after a cycle (R46, R120). -/
def State.status (s : State) : Status :=
  match s.run with
  | .running => .ok
  | .waitKey _ => .needsInput
  | .faulted info => .fault info

/-- sound_on = (ST ≠ 0) (R44). -/
def State.soundOn (s : State) : Bool := s.st != 0x00#8

/-- frame: the 2048 cells in row-major order (R45). -/
def State.frame (s : State) : List Bool := (List.range 2048).map (pix s.fb)

/-- What reset reports to the host: whether the ROM was loaded (R314). -/
def romLoads (rom : List Byte) : Bool := decide (rom.length ≤ romMax)

end Sys2Proof.Machine
end

