-- ==== Sys2Proof/Machine/Step.lean ====
section
/-! DEFINITION. One step of the whole system: the next event of the schedule, or, when none is
planned, the processor's cycle. -/

namespace Sys2Proof.Machine

/-- One step. The schedule says which agent moves (R72, R286: any interleaving of whole events is an
execution); with nothing scheduled, the processor runs one cycle (R120). -/
def step (s : State) : Host.Outcome State Fault Refusal :=
  match s.schedule with
  | [] => executeCycle s
  | e :: rest => deliver e (s.setSchedule rest)

/-- s with the instruction word w stored where the next step fetches: at PC, high byte first (R63);
where no word can be fetched at PC (PC + 1 is not below MEM_SIZE), PC is the reset entry. The core is
RUNNING and no event comes before the fetch. It stands for a load from outside the machine (log entry 5). -/
def State.withFetchWord (s : State) (nbits w : Nat) : State :=
  let word := BitVec.ofNat 16 (w % 2 ^ nbits)
  let pc : Word := if s.pc.toNat + 1 < memSize then s.pc else 0x0200#16
  { s with
    pc := pc
    run := .running
    schedule := []
    mem := s.mem.writeBytes pc.toNat [highByte word, lowByte word] }

end Sys2Proof.Machine
end

