-- ==== Sys2Proof/Machine/Runs.lean ====
section
/-! DEFINITION. Many steps: a run of the planned schedule, the infinite executions of all the agents
together with their fairness (R282), and the state in which a run is observed (R290). -/

namespace Sys2Proof.Machine

/-- n steps, stopping where a step stops. -/
def steps (n : Nat) (s : State) : Answer :=
  match n with
  | 0 => .next s
  | n + 1 =>
    match step s with
    | .next t => steps n t
    | .fault r => .fault r
    | .refused r => .refused r

/-! ### Infinite executions (R282, R286) -/

/-- An infinite execution: the states passed through, and the event that leads from each to the next.
Which agent moves when is not limited in any way: the events are any sequence. -/
structure Execution where
  state : Nat → State
  event : Nat → Event

/-- Every state comes from the one before it by one step, whose schedule is the event at hand. -/
def Execution.Follows (x : Execution) : Prop :=
  ∀ n, step ((x.state n).setSchedule [x.event n]) = .next (x.state (n + 1))

/-- An event occurs infinitely often: after every point it occurs again. -/
def Execution.Recurs (x : Execution) (e : Event) : Prop := ∀ n, ∃ m, n ≤ m ∧ x.event m = e

/-- Weak fairness of each tick agent (R282). -/
def Execution.Fair (x : Execution) : Prop := x.Recurs .tickDt ∧ x.Recurs .tickSt

/-! ### The end of a run, for observation (R290) -/

/-- The word at PC is 0x1nnn with nnn = PC: an idle self-jump (R290 (b)). -/
def selfJump (s : State) : Bool :=
  match fetch s with
  | .ok w => decide (w.toNat = 0x1000 + s.pc.toNat) && decide (s.pc.toNat < memSize)
  | .error _ => false

/-- A key event of the host (R47). -/
def Event.isKey (e : Event) : Bool :=
  match e with
  | .keyEnable _ => true
  | .keyDisable _ => true
  | .cycle => false
  | .tickDt => false
  | .tickSt => false
  | .stClear => false
  | .rand _ => false
  | .reset _ => false

/-- The host's stated key events are exhausted: none is left on the schedule, whatever else is (R290 (c)). -/
def State.keysExhausted (s : State) : Bool := s.schedule.all fun e => !e.isKey

/-- A run is observed here (R290): the core has faulted, or idles on a self-jump, or waits for a key
while none is held and the host's key events are exhausted. It does not say that the hardware stops. -/
def endOfRun (s : State) : Bool :=
  match s.run with
  | .faulted _ => true
  | .running => selfJump s
  | .waitKey _ => s.keysExhausted && s.keys == 0

/-- The state in which the run from s is observed, if it is reached within n steps: the first at which
a run ends (R290). -/
def observed (n : Nat) (s : State) : Option State :=
  match n with
  | 0 => if endOfRun s then some s else none
  | n + 1 =>
    if endOfRun s then some s
    else
      match step s with
      | .next t => observed n t
      | .fault _ => none
      | .refused _ => none

end Sys2Proof.Machine
end

