-- ==== Sys2Proof/Safety.lean ====
section
/-! DEFINITION. The terms claims are made in: which parts of the state two states share, who may write
a register, the invariant of the machine, and the rows of the opcode table as masks. -/

namespace Sys2Proof.Machine

/-! ### Frames -/

/-- The parts of the state. -/
inductive Part where
  | v | pc | i | run | stack | mem | dt | st | fb | keys | cfg | schedule | rand
  deriving DecidableEq, Repr

/-- t has every part of s but those listed. Registers and memory are compared one register and one byte at a time. -/
def SameBut (parts : List Part) (s t : State) : Prop :=
  (Part.v ∉ parts → ∀ r, t.reg r = s.reg r) ∧
  (Part.pc ∉ parts → t.pc = s.pc) ∧
  (Part.i ∉ parts → t.i = s.i) ∧
  (Part.run ∉ parts → t.run = s.run) ∧
  (Part.stack ∉ parts → t.stack = s.stack) ∧
  (Part.mem ∉ parts → ∀ a, t.mem.read a = s.mem.read a) ∧
  (Part.dt ∉ parts → t.dt = s.dt) ∧
  (Part.st ∉ parts → t.st = s.st) ∧
  (Part.fb ∉ parts → t.fb = s.fb) ∧
  (Part.keys ∉ parts → t.keys = s.keys) ∧
  (Part.cfg ∉ parts → t.cfg = s.cfg) ∧
  (Part.schedule ∉ parts → t.schedule = s.schedule) ∧
  (Part.rand ∉ parts → t.rand = s.rand ∧ t.draws = s.draws)

/-- An ALU result as the flag rules have it: VF holds the flag; Vx holds the result unless x = F; the
other registers, and every part of the state but the registers, are as they were (R25, R192). -/
def ResultAndFlag (x : Reg) (result flag : Nat) (s t : State) : Prop :=
  (t.reg Reg.vf).toNat = flag ∧
  (x ≠ Reg.vf → (t.reg x).toNat = result) ∧
  (∀ r, r ≠ x → r ≠ Reg.vf → t.reg r = s.reg r) ∧
  SameBut [.v] s t

/-- The state s with the fault of an instruction in its execute phase: PC is back at the
instruction's own address and nothing else but run is changed (R272). -/
def faultedAt (s : State) (kind : FaultKind) (opcode : Word) (addr : Option Nat) : State :=
  { s with
    pc := s.pc - 2#16
    run := .faulted { kind := kind, pc := s.pc - 2#16, opcode := some opcode, addr := addr } }

/-! ### Who may write what (10_state.md) -/

/-- The instructions that write register r: through X, through a range, or VF as a flag (R21). -/
def Writes (i : Instr) (r : Reg) : Prop :=
  match i with
  | .ldByte x _ => r = x
  | .addByte x _ => r = x
  | .ldReg x _ => r = x
  | .orReg x _ => r = x ∨ r = Reg.vf
  | .andReg x _ => r = x ∨ r = Reg.vf
  | .xorReg x _ => r = x ∨ r = Reg.vf
  | .addReg x _ => r = x ∨ r = Reg.vf
  | .subReg x _ => r = x ∨ r = Reg.vf
  | .shr x _ => r = x ∨ r = Reg.vf
  | .subn x _ => r = x ∨ r = Reg.vf
  | .shl x _ => r = x ∨ r = Reg.vf
  | .rnd x _ => r = x
  | .drw _ _ _ => r = Reg.vf
  | .ldVxDt x => r = x
  | .ldVxK x => r = x
  | .ldVxMem x => r.val ≤ x.val
  | .sys _ => False
  | .cls => False
  | .ret => False
  | .jp _ => False
  | .call _ => False
  | .seByte _ _ => False
  | .sneByte _ _ => False
  | .seReg _ _ => False
  | .sneReg _ _ => False
  | .ldI _ => False
  | .jpV0 _ => False
  | .skp _ => False
  | .sknp _ => False
  | .ldDtVx _ => False
  | .ldStVx _ => False
  | .addIVx _ => False
  | .ldFVx _ => False
  | .ldBVx _ => False
  | .ldMemVx _ => False

/-! ### The invariant -/

/-- A fault record that one of the four faults can leave (R31, R271, R277). -/
def FaultInfo.Legal (c : Config) (info : FaultInfo) : Prop :=
  match info.kind with
  | .decodeError => info.addr = none ∧ ∃ w, info.opcode = some w ∧ ∀ i, decode w ≠ .ok i
  | .stackUnderflow => info.addr = none ∧ info.opcode = some 0x00EE#16
  | .outOfBounds => ∃ a, info.addr = some a ∧ memSize ≤ a
  | .stackOverflow => info.addr = none ∧ c.stackDepth ≠ none ∧ ∃ nnn, info.opcode = some (encode (.call nnn))

/-- What holds of every state a run can reach. -/
structure Inv (s : State) : Prop where
  /-- The parameters are within the ranges of R6. -/
  config : s.cfg.wf = true
  /-- Memory is in its canonical form: only addresses 0x000-0xFFF hold bytes (R36). -/
  memory : s.mem.wf = true
  /-- PC never exceeds 0x10FE (R28). -/
  pcBound : s.pc.toNat ≤ 0x10FE
  /-- A pushed entry lies in 0x0002..0x1000 (R34). -/
  returns : ∀ a ∈ s.stack, 0x0002 ≤ a.toNat ∧ a.toNat ≤ 0x1000
  /-- The depth of the call stack is bounded by STACK_DEPTH (R33). -/
  depth : ∀ d, s.cfg.stackDepth = some d → s.stack.length ≤ d
  /-- A faulted core stands at the faulting instruction, with a legal record (R31, R272). -/
  record : ∀ info, s.run = .faulted info → info.pc = s.pc ∧ info.Legal s.cfg

/-! ### The opcode table (R96) -/

/-- The row's match and mask columns. -/
def tableRow (i : Instr) : Word × Word :=
  match i with
  | .sys _ => (0x0000#16, 0xF000#16)
  | .cls => (0x00E0#16, 0xFFFF#16)
  | .ret => (0x00EE#16, 0xFFFF#16)
  | .jp _ => (0x1000#16, 0xF000#16)
  | .call _ => (0x2000#16, 0xF000#16)
  | .seByte _ _ => (0x3000#16, 0xF000#16)
  | .sneByte _ _ => (0x4000#16, 0xF000#16)
  | .seReg _ _ => (0x5000#16, 0xF00F#16)
  | .ldByte _ _ => (0x6000#16, 0xF000#16)
  | .addByte _ _ => (0x7000#16, 0xF000#16)
  | .ldReg _ _ => (0x8000#16, 0xF00F#16)
  | .orReg _ _ => (0x8001#16, 0xF00F#16)
  | .andReg _ _ => (0x8002#16, 0xF00F#16)
  | .xorReg _ _ => (0x8003#16, 0xF00F#16)
  | .addReg _ _ => (0x8004#16, 0xF00F#16)
  | .subReg _ _ => (0x8005#16, 0xF00F#16)
  | .shr _ _ => (0x8006#16, 0xF00F#16)
  | .subn _ _ => (0x8007#16, 0xF00F#16)
  | .shl _ _ => (0x800E#16, 0xF00F#16)
  | .sneReg _ _ => (0x9000#16, 0xF00F#16)
  | .ldI _ => (0xA000#16, 0xF000#16)
  | .jpV0 _ => (0xB000#16, 0xF000#16)
  | .rnd _ _ => (0xC000#16, 0xF000#16)
  | .drw _ _ _ => (0xD000#16, 0xF000#16)
  | .skp _ => (0xE09E#16, 0xF0FF#16)
  | .sknp _ => (0xE0A1#16, 0xF0FF#16)
  | .ldVxDt _ => (0xF007#16, 0xF0FF#16)
  | .ldVxK _ => (0xF00A#16, 0xF0FF#16)
  | .ldDtVx _ => (0xF015#16, 0xF0FF#16)
  | .ldStVx _ => (0xF018#16, 0xF0FF#16)
  | .addIVx _ => (0xF01E#16, 0xF0FF#16)
  | .ldFVx _ => (0xF029#16, 0xF0FF#16)
  | .ldBVx _ => (0xF033#16, 0xF0FF#16)
  | .ldMemVx _ => (0xF055#16, 0xF0FF#16)
  | .ldVxMem _ => (0xF065#16, 0xF0FF#16)

end Sys2Proof.Machine
end

