-- ==== Sys2Proof/Certificates/Slice0/Obligations.lean ====
section
/-! DEFINITION. The statements for the provers, in the order of the spec's files. In a statement about
exec the state is that of the execute phase: PC is pc0 + 2 (R122). -/

open Sys2Proof Sys2Proof.Machine

/-! ### Encoding (30_encoding.md) -/

/-- Words written out from the patterns of R96 decode to the instructions they stand for, and illegal words are rejected by family. -/
def Obligations.WrittenWordsDecode : Prop :=
  decode 0x0000#16 = .ok (.sys 0x000) ∧
  decode 0x00E0#16 = .ok .cls ∧
  decode 0x00EE#16 = .ok .ret ∧
  decode 0x2ABC#16 = .ok (.call 0xABC) ∧
  decode 0x3A42#16 = .ok (.seByte 0xA 0x42) ∧
  decode 0x812E#16 = .ok (.shl 1 2) ∧
  decode 0xD12F#16 = .ok (.drw 1 2 15) ∧
  decode 0xE59E#16 = .ok (.skp 5) ∧
  decode 0xFA65#16 = .ok (.ldVxMem 0xA) ∧
  decode 0x5121#16 = .error .seRegFunction ∧
  decode 0x8008#16 = .error .aluFunction ∧
  decode 0xF000#16 = .error .miscFunction

/-- Decoding the word of a well-formed instruction gives the instruction back, with every operand (R92, R94). -/
def Obligations.DecodeOfEncodeIsTheInstruction : Prop :=
  ∀ i : Instr, i.wf = true → decode (encode i) = .ok i

/-- A word that decodes is the word of the instruction it decodes to, and that instruction is well-formed. -/
def Obligations.EncodeOfDecodeIsTheWord : Prop :=
  ∀ (w : Word) (i : Instr), decode w = .ok i → encode i = w ∧ i.wf = true

/-- The words that decode to nothing are exactly those R97 lists, by class and function digits. -/
def Obligations.IllegalWordsAreExactlyThoseListed : Prop :=
  ∀ w : Word, (∀ i, decode w ≠ .ok i) ↔
    (w.toNat / 4096 = 0x5 ∧ w.toNat % 16 ≠ 0) ∨
    (w.toNat / 4096 = 0x8 ∧ 8 ≤ w.toNat % 16 ∧ w.toNat % 16 ≠ 0xE) ∨
    (w.toNat / 4096 = 0x9 ∧ w.toNat % 16 ≠ 0) ∨
    (w.toNat / 4096 = 0xE ∧ w.toNat % 256 ∉ [0x9E, 0xA1]) ∨
    (w.toNat / 4096 = 0xF ∧ w.toNat % 256 ∉ [0x07, 0x0A, 0x15, 0x18, 0x1E, 0x29, 0x33, 0x55, 0x65])

/-- A word belongs to a row of the table when (w & mask) = match, and then it decodes to an
instruction of that row; row SYS also needs w to be neither 0x00E0 nor 0x00EE. -/
def Obligations.RowsAreSelectedByMaskAndMatch : Prop :=
  ∀ (w : Word) (i : Instr),
    (decode w = .ok i → w &&& (tableRow i).2 = (tableRow i).1) ∧
    (w &&& (tableRow i).2 = (tableRow i).1 →
      ((∃ nnn, i = .sys nnn) → w ≠ 0x00E0#16 ∧ w ≠ 0x00EE#16) →
      ∃ j, decode w = .ok j ∧ tableRow j = tableRow i)

/-! ### The cycle (40_control.md section 1) and the agents (60_exceptions.md section 5) -/

/-- In RUNNING, a step runs the instruction that the two bytes at PC decode to, with PC moved past it;
so does a step whose scheduled event is the strobe `cycle` (R120, R122). -/
def Obligations.StepRunsTheDecodedInstruction : Prop :=
  ∀ (s : State) (i : Instr), s.run = .running → s.pc.toNat + 1 < 4096 →
    decode (wordOfBytes (s.mem.read s.pc.toNat) (s.mem.read (s.pc.toNat + 1))) = .ok i →
    (s.schedule = [] → step s = exec i { s with pc := s.pc + 2#16 }) ∧
    (∀ rest, s.schedule = .cycle :: rest → step s = exec i { s with pc := s.pc + 2#16, schedule := rest })

/-- A scheduled event is what the step does, and it is gone from the schedule; with none, the step is a
cycle, and so is the event `cycle` (R72, R286; log entry 4). -/
def Obligations.StepDeliversTheScheduledEvent : Prop :=
  ∀ (s : State), (s.schedule = [] → step s = executeCycle s) ∧
    (∀ e rest, s.schedule = e :: rest → step s = deliver e { s with schedule := rest }) ∧
    deliver .cycle s = executeCycle s

/-- The fetch reads the byte at PC, the high one, and the byte after it; it faults at the first of the
two that is not in memory, before PC changes, and the record has no opcode. So it is in every cycle
in RUNNING, whatever is scheduled after it. -/
def Obligations.FetchOutOfRangeFaults : Prop :=
  ∀ s : State, s.run = .running →
    (s.pc.toNat + 1 < 4096 →
      fetch s = .ok (wordOfBytes (s.mem.read s.pc.toNat) (s.mem.read (s.pc.toNat + 1)))) ∧
    (0x1000 ≤ s.pc.toNat → executeCycle s =
      .next { s with run := .faulted { kind := .outOfBounds, pc := s.pc, opcode := none, addr := some s.pc.toNat } }) ∧
    (s.pc = 0x0FFF#16 → executeCycle s =
      .next { s with run := .faulted { kind := .outOfBounds, pc := s.pc, opcode := none, addr := some 0x1000 } })

/-- In a cycle in RUNNING, whatever is scheduled after it, a word that decodes to nothing raises
DecodeError with the word as the opcode, and nothing but run changes (R94, R271, R272). -/
def Obligations.IllegalWordRaisesDecodeError : Prop :=
  ∀ s : State, s.run = .running → s.pc.toNat + 1 < 4096 →
    (∀ i, decode (wordOfBytes (s.mem.read s.pc.toNat) (s.mem.read (s.pc.toNat + 1))) ≠ .ok i) →
    executeCycle s = .next { s with run := .faulted ⟨.decodeError, s.pc,
      some (wordOfBytes (s.mem.read s.pc.toNat) (s.mem.read (s.pc.toNat + 1))), none⟩ }

/-- Every step answers a next state: the core has one mode, every instruction can be executed at every
time, and every fault is a state (R272, R280). No step of the model stops. -/
def Obligations.EveryStepAnswersNext : Prop :=
  ∀ s : State, ∃ t, step s = .next t

/-- A store that covers the next instruction's bytes is seen by its fetch: after FX55 has written the
word's two bytes at PC, the next cycle runs the instruction they decode to (R75, R321). -/
def Obligations.StoreIsSeenByTheNextFetch : Prop :=
  ∀ (s : State) (x k : Reg) (j : Instr), s.mem.wf = true → s.run = .running →
    s.i.toNat + x.val < 4096 → k.val + 1 ≤ x.val → s.pc.toNat = s.i.toNat + k.val →
    decode (wordOfBytes (s.reg k) (s.reg (k + 1))) = .ok j →
    ∃ t, exec (.ldMemVx x) s = .next t ∧ executeCycle t = exec j { t with pc := t.pc + 2#16 }

/-! ### State (10_state.md) -/

/-- No instruction, tick or key event leaves FAULTED, and a cycle strobed in FAULTED changes no state; a reset that loads leaves it. -/
def Obligations.OnlyResetLeavesFaulted : Prop :=
  ∀ (s : State) (info : FaultInfo), s.run = .faulted info →
    executeCycle s = .next s ∧
    (∀ e t, deliver e s = .next t → (∀ rom, e ≠ .reset rom) → t.run = .faulted info) ∧
    (∀ rom, rom.length ≤ 3584 → ∃ t, deliver (.reset rom) s = .next t ∧ t.run = .running)

/-- The registers an instruction changes are those R21 names for it: Vx, V0..Vx of FX65, or VF as a flag. -/
def Obligations.OnlyNamedRegistersAreWritten : Prop :=
  ∀ (i : Instr) (s t : State) (r : Reg), exec i s = .next t → t.reg r ≠ s.reg r → Writes i r

/-- Each part of the state is written by its own instructions only: FB by CLS and DXYN (R40), the stack
by CALL and RET (R33), memory by FX33 and FX55 (R65), I by ANNN, FX1E, FX29, FX55 and FX65 (R29), DT by
FX15 and ST by FX18 (R37), K and the parameters by none (R42), PC in the execute phase by the
control-transfer and key-skip instructions (R123), unless the instruction faults. -/
def Obligations.EachPartIsWrittenByItsOwnInstructions : Prop :=
  ∀ (i : Instr) (s t : State), exec i s = .next t →
    (t.fb ≠ s.fb → i = .cls ∨ ∃ x y n, i = .drw x y n) ∧
    (t.stack ≠ s.stack → i = .ret ∨ ∃ nnn, i = .call nnn) ∧
    (t.mem ≠ s.mem → ∃ x, i = .ldBVx x ∨ i = .ldMemVx x) ∧
    (t.i ≠ s.i → (∃ nnn, i = .ldI nnn) ∨ ∃ x, i = .addIVx x ∨ i = .ldFVx x ∨ i = .ldMemVx x ∨ i = .ldVxMem x) ∧
    (t.dt ≠ s.dt → ∃ x, i = .ldDtVx x) ∧
    (t.st ≠ s.st → ∃ x, i = .ldStVx x) ∧
    t.keys = s.keys ∧ t.cfg = s.cfg ∧ t.schedule = s.schedule ∧
    (t.pc ≠ s.pc → (∀ info, t.run ≠ .faulted info) →
      i = .ret ∨ (∃ nnn, i = .jp nnn ∨ i = .call nnn ∨ i = .jpV0 nnn) ∨
      (∃ x nn, i = .seByte x nn ∨ i = .sneByte x nn) ∨
      (∃ x y, i = .seReg x y ∨ i = .sneReg x y) ∨ ∃ x, i = .skp x ∨ i = .sknp x)

/-- The invariant holds right after reset. -/
def Obligations.InvariantHoldsAtReset : Prop := Inv State.reset

/-- Every step keeps the invariant: memory stays canonical, PC never exceeds 0x10FE (R28), every stack
entry lies in 0x0002..0x1000 (R34), the depth stays within STACK_DEPTH (R33), and a faulted core stands
at the faulting instruction with a legal record (R31, R272). -/
def Obligations.EveryStepKeepsTheInvariant : Prop :=
  ∀ s t : State, Inv s → step s = .next t → Inv t

/-- No program observes ST: two states that differ in ST only step to states that differ in ST only (R37, R49). -/
def Obligations.SoundTimerIsInvisibleToPrograms : Prop :=
  ∀ (s t : State) (b : Byte), step s = .next t →
    ∃ c : Byte, step { s with st := b } = .next { t with st := c }

/-! ### Memory and the call stack (20_memory.md) -/

/-- MemRead and MemWrite raise OutOfBounds(a) at every a ≥ 4096; below, a read is M[a] and a write
changes M[a] and no other byte (R61, R62). A write keeps the canonical form: the model's form of M (log entry 6). -/
def Obligations.MemoryReadsAndWrites : Prop :=
  ∀ (m : Memory) (a : Nat) (v : Byte), m.wf = true →
    (4096 ≤ a → memRead m a = .error (.outOfBounds a) ∧ memWrite m a v = .error (.outOfBounds a)) ∧
    (a < 4096 → memRead m a = .ok (m.read a) ∧
      ∃ m', memWrite m a v = .ok m' ∧ m'.wf = true ∧ m'.read a = v ∧ ∀ b, b ≠ a → m'.read b = m.read b)

/-- Memories in canonical form that read the same everywhere are equal data (the model's form of M: log entry 6). -/
def Obligations.CanonicalMemoriesAreDeterminedByTheirBytes : Prop :=
  ∀ m m' : Memory, m.wf = true → m'.wf = true → (∀ a, m.read a = m'.read a) → m = m'

/-- CALL pushes PC and jumps to NNN; onto a full stack it raises StackOverflow and changes neither stack nor PC. -/
def Obligations.CallPushesAndJumps : Prop :=
  ∀ (nnn : Addr) (s : State),
    (s.cfg.stackDepth ≠ some s.stack.length → ∃ t, exec (.call nnn) s = .next t ∧
      t.stack = s.stack ++ [s.pc] ∧ t.pc.toNat = nnn.toNat ∧ SameBut [.pc, .stack] s t) ∧
    (s.cfg.stackDepth = some s.stack.length →
      exec (.call nnn) s = .next (faultedAt s .stackOverflow (0x2000#16 ||| nnn.setWidth 16) none))

/-- RET pops the top entry into PC; on an empty stack it raises StackUnderflow. -/
def Obligations.RetPopsIntoPc : Prop :=
  ∀ s : State,
    (∀ l a, s.stack = l ++ [a] → ∃ t, exec .ret s = .next t ∧ t.pc = a ∧ t.stack = l ∧ SameBut [.pc, .stack] s t) ∧
    (s.stack = [] → exec .ret s = .next (faultedAt s .stackUnderflow 0x00EE#16 none))

/-! ### Control transfer (40_control.md) -/

/-- SYS changes nothing in its execute phase, whatever NNN is (R125). -/
def Obligations.SysIsANoOp : Prop :=
  ∀ (nnn : Addr) (s : State), exec (.sys nnn) s = .next s

/-- JP sets PC to NNN and JP V0 to V0 + NNN, an integer sum that needs no reduction; nothing else changes (R129, R141). -/
def Obligations.JumpsSetPc : Prop :=
  ∀ (nnn : Addr) (s : State),
    (∃ t, exec (.jp nnn) s = .next t ∧ t.pc.toNat = nnn.toNat ∧ SameBut [.pc] s t) ∧
    (∃ t, exec (.jpV0 nnn) s = .next t ∧ t.pc.toNat = (s.reg 0).toNat + nnn.toNat ∧ SameBut [.pc] s t)

/-- The four compare-and-skip instructions add 2 to PC mod 2^16 when their comparison holds, and
otherwise leave the state as it is; nothing but PC changes (R124, R133, R135, R137, R139). -/
def Obligations.CompareSkipsMovePc : Prop :=
  ∀ (x y : Reg) (nn : Byte) (s : State),
    (∃ t, exec (.seByte x nn) s = .next t ∧ SameBut [.pc] s t ∧
      t.pc.toNat = if (s.reg x).toNat = nn.toNat then (s.pc.toNat + 2) % 65536 else s.pc.toNat) ∧
    (∃ t, exec (.sneByte x nn) s = .next t ∧ SameBut [.pc] s t ∧
      t.pc.toNat = if (s.reg x).toNat = nn.toNat then s.pc.toNat else (s.pc.toNat + 2) % 65536) ∧
    (∃ t, exec (.seReg x y) s = .next t ∧ SameBut [.pc] s t ∧
      t.pc.toNat = if (s.reg x).toNat = (s.reg y).toNat then (s.pc.toNat + 2) % 65536 else s.pc.toNat) ∧
    (∃ t, exec (.sneReg x y) s = .next t ∧ SameBut [.pc] s t ∧
      t.pc.toNat = if (s.reg x).toNat = (s.reg y).toNat then s.pc.toNat else (s.pc.toNat + 2) % 65536)

/-! ### Display (41_display.md) -/

/-- CLS turns all 2048 cells off and changes nothing else, VF included (R150). -/
def Obligations.ClsTurnsEveryCellOff : Prop :=
  ∀ s : State, ∃ t, exec .cls s = .next t ∧ (∀ k, k < 2048 → pix t.fb k = false) ∧ SameBut [.fb] s t

/-- DXYN: with every sprite byte in memory (or N = 0, wherever I points), a cell is toggled iff a set
bit c of a row r lands on it, at row (ys + r) mod 32 and column (xs + c) mod 64; VF is 1 iff a set bit
lands on a cell that was on, and else 0; nothing but FB and VF changes, whatever X and Y are (R151-R159). -/
def Obligations.DrwTogglesTheSpriteCells : Prop :=
  ∀ (x y : Reg) (n : Fin 16) (s : State), n.val = 0 ∨ s.i.toNat + n.val ≤ 4096 →
    ∃ t, exec (.drw x y n) s = .next t ∧
      (∀ k, k < 2048 → (pix t.fb k ≠ pix s.fb k ↔
        ∃ r c, r < n.val ∧ c < 8 ∧ (s.mem.read (s.i.toNat + r)).getLsbD (7 - c) = true ∧
          k = ((s.reg y).toNat + r) % 32 * 64 + ((s.reg x).toNat + c) % 64)) ∧
      ((∃ r c, r < n.val ∧ c < 8 ∧ (s.mem.read (s.i.toNat + r)).getLsbD (7 - c) = true ∧
          pix s.fb (((s.reg y).toNat + r) % 32 * 64 + ((s.reg x).toNat + c) % 64) = true) →
        t.reg Reg.vf = 1#8) ∧
      (¬ (∃ r c, r < n.val ∧ c < 8 ∧ (s.mem.read (s.i.toNat + r)).getLsbD (7 - c) = true ∧
          pix s.fb (((s.reg y).toNat + r) % 32 * 64 + ((s.reg x).toNat + c) % 64) = true) →
        t.reg Reg.vf = 0#8) ∧
      (∀ r, r ≠ Reg.vf → t.reg r = s.reg r) ∧
      SameBut [.v, .fb] s t

/-- DXY0 draws no rows: it reads no memory, changes no cell, writes VF <- 0, and cannot fault, whatever I holds. -/
def Obligations.DrwOfNoRowsClearsVf : Prop :=
  ∀ (x y : Reg) (s : State), ∃ t, exec (.drw x y 0) s = .next t ∧
    (t.reg Reg.vf).toNat = 0 ∧ (∀ r, r ≠ Reg.vf → t.reg r = s.reg r) ∧ SameBut [.v] s t

/-- Drawing is self-inverse: the same DXYN twice, with V[X], V[Y] as they were (I and the sprite bytes
are), restores FB. The second draw sets VF = 1 iff a set sprite bit landed on a cell that was off before
the first, and else 0: what R156 gives (log entry 8). -/
def Obligations.DrawingTwiceRestoresTheFrame : Prop :=
  ∀ (x y : Reg) (n : Fin 16) (s t : State), n.val = 0 ∨ s.i.toNat + n.val ≤ 4096 →
    exec (.drw x y n) s = .next t → t.reg x = s.reg x → t.reg y = s.reg y →
    ∃ u, exec (.drw x y n) t = .next u ∧ u.fb = s.fb ∧
      ((∃ r c, r < n.val ∧ c < 8 ∧ (s.mem.read (s.i.toNat + r)).getLsbD (7 - c) = true ∧
          pix s.fb (((s.reg y).toNat + r) % 32 * 64 + ((s.reg x).toNat + c) % 64) = false) →
        u.reg Reg.vf = 1#8) ∧
      (¬ (∃ r c, r < n.val ∧ c < 8 ∧ (s.mem.read (s.i.toNat + r)).getLsbD (7 - c) = true ∧
          pix s.fb (((s.reg y).toNat + r) % 32 * 64 + ((s.reg x).toNat + c) % 64) = false) →
        u.reg Reg.vf = 0#8)

/-- R161's second sentence as it is written: the second of two equal draws sets VF = 1 whenever the
sprite has a set bit. It does NOT hold: where every set bit landed on a cell that was on before the
first draw, the second lands on cells that are off, and R156 gives VF = 0 (log entry 8). -/
def Obligations.SecondDrawCollidesWheneverTheSpriteIsNotEmpty : Prop :=
  ∀ (x y : Reg) (n : Fin 16) (s t u : State), s.i.toNat + n.val ≤ 4096 →
    exec (.drw x y n) s = .next t → t.reg x = s.reg x → t.reg y = s.reg y →
    exec (.drw x y n) t = .next u →
    (∃ r, r < n.val ∧ s.mem.read (s.i.toNat + r) ≠ 0#8) → u.reg Reg.vf = 1#8

/-! ### Registers and ALU (42_alu.md) -/

/-- 6XNN, 7XNN and 8XY0 write Vx, reduced mod 256, and nothing else; with x = F, VF is an ordinary destination (R170-R172). -/
def Obligations.LoadsAndAddImmediate : Prop :=
  ∀ (x y : Reg) (nn : Byte) (s : State),
    (∃ t, exec (.ldByte x nn) s = .next t ∧ t.reg x = nn ∧ (∀ r, r ≠ x → t.reg r = s.reg r) ∧ SameBut [.v] s t) ∧
    (∃ t, exec (.addByte x nn) s = .next t ∧ (t.reg x).toNat = ((s.reg x).toNat + nn.toNat) % 256 ∧
      (∀ r, r ≠ x → t.reg r = s.reg r) ∧ SameBut [.v] s t) ∧
    (∃ t, exec (.ldReg x y) s = .next t ∧ t.reg x = s.reg y ∧ (∀ r, r ≠ x → t.reg r = s.reg r) ∧ SameBut [.v] s t)

/-- 8XY1, 8XY2 and 8XY3: the bitwise result in Vx, VF <- 0, the flag written last (R173-R175, R192). -/
def Obligations.LogicResultsClearVf : Prop :=
  ∀ (x y : Reg) (s : State),
    (∃ t, exec (.orReg x y) s = .next t ∧ ResultAndFlag x ((s.reg x).toNat ||| (s.reg y).toNat) 0 s t) ∧
    (∃ t, exec (.andReg x y) s = .next t ∧ ResultAndFlag x ((s.reg x).toNat &&& (s.reg y).toNat) 0 s t) ∧
    (∃ t, exec (.xorReg x y) s = .next t ∧ ResultAndFlag x ((s.reg x).toNat ^^^ (s.reg y).toNat) 0 s t)

/-- 8XY4: the sum mod 256 in Vx, VF = 1 iff the integer sum exceeds 255, the flag written last (R176). -/
def Obligations.AddResultAndCarry : Prop :=
  ∀ (x y : Reg) (s : State), ∃ t, exec (.addReg x y) s = .next t ∧
    ResultAndFlag x (((s.reg x).toNat + (s.reg y).toNat) % 256)
      (if (s.reg x).toNat + (s.reg y).toNat > 255 then 1 else 0) s t

/-- 8XY5 and 8XY7: the difference mod 256 in Vx, VF = 1 iff the minuend is strictly greater, from the
original operands, the flag written last (R177, R183). -/
def Obligations.SubtractResultsAndFlags : Prop :=
  ∀ (x y : Reg) (s : State),
    (∃ t, exec (.subReg x y) s = .next t ∧
      ResultAndFlag x ((((s.reg x).toNat : Int) - (s.reg y).toNat) % 256).toNat
        (if (s.reg x).toNat > (s.reg y).toNat then 1 else 0) s t) ∧
    (∃ t, exec (.subn x y) s = .next t ∧
      ResultAndFlag x ((((s.reg y).toNat : Int) - (s.reg x).toNat) % 256).toNat
        (if (s.reg y).toNat > (s.reg x).toNat then 1 else 0) s t)

/-- 8XY6 and 8XYE: the source is the original Vy under SHIFT_QUIRK = TABLE and the original Vx under
IN_PLACE; the flag is bit 0 or bit 7 of the original Vx under both, and is written last (R180, R181, R186). -/
def Obligations.ShiftResultsAndFlags : Prop :=
  ∀ (x y : Reg) (s : State),
    (∃ t, exec (.shr x y) s = .next t ∧
      ResultAndFlag x ((if s.cfg.shiftQuirk = .table then (s.reg y).toNat else (s.reg x).toNat) / 2)
        ((s.reg x).toNat % 2) s t) ∧
    (∃ t, exec (.shl x y) s = .next t ∧
      ResultAndFlag x ((if s.cfg.shiftQuirk = .table then (s.reg y).toNat else (s.reg x).toNat) * 2 % 256)
        ((s.reg x).toNat / 128) s t)

/-- CXNN: Vx is the drawn byte masked with NN, for every draw: the byte the host has put on the input,
which is consumed, or else the free byte of this draw (log entry 3). No flag; nothing else changes (R187). -/
def Obligations.RndMasksTheDrawnByte : Prop :=
  ∀ (x : Reg) (nn : Byte) (s : State),
    ∃ t, exec (.rnd x nn) s = .next t ∧
      (∀ r rest, s.rand = r :: rest → t.reg x = r &&& nn ∧ t.rand = rest) ∧
      (s.rand = [] → t.reg x = Config.freeByte s.draws &&& nn ∧ t.rand = []) ∧
      t.reg x &&& ~~~nn = 0#8 ∧ t.draws = s.draws + 1 ∧
      (∀ r, r ≠ x → t.reg r = s.reg r) ∧ SameBut [.v, .rand] s t

/-! ### Index register and memory (43_index_memory.md) -/

/-- ANNN, FX1E and FX29 write I and nothing else: NNN, I + Vx mod 2^16, and Vx * 5 from the full byte (R210-R212). -/
def Obligations.IndexRegisterWrites : Prop :=
  ∀ (nnn : Addr) (x : Reg) (s : State),
    (∃ t, exec (.ldI nnn) s = .next t ∧ t.i.toNat = nnn.toNat ∧ SameBut [.i] s t) ∧
    (∃ t, exec (.addIVx x) s = .next t ∧ t.i.toNat = (s.i.toNat + (s.reg x).toNat) % 65536 ∧ SameBut [.i] s t) ∧
    (∃ t, exec (.ldFVx x) s = .next t ∧ t.i.toNat = (s.reg x).toNat * 5 ∧ SameBut [.i] s t)

/-- FX33, with its three bytes in memory: hundreds, tens and ones at I, I+1, I+2; every other byte and I are as they were (R214). -/
def Obligations.BcdStoresThreeDigits : Prop :=
  ∀ (x : Reg) (s : State), s.mem.wf = true → s.i.toNat + 2 < 4096 →
    ∃ t, exec (.ldBVx x) s = .next t ∧
      (t.mem.read (s.dataAddr 0)).toNat = (s.reg x).toNat / 100 ∧
      (t.mem.read (s.dataAddr 1)).toNat = (s.reg x).toNat / 10 % 10 ∧
      (t.mem.read (s.dataAddr 2)).toNat = (s.reg x).toNat % 10 ∧
      (∀ a, a ≠ s.dataAddr 0 → a ≠ s.dataAddr 1 → a ≠ s.dataAddr 2 → t.mem.read a = s.mem.read a) ∧
      SameBut [.mem] s t

/-- FX55, with its block in memory: V0..Vx at I and up, every other byte as it was, and I advanced by
x + 1 mod 2^16 iff LS_ADVANCE_I (R215, R216). -/
def Obligations.StoreRegistersWritesTheBlock : Prop :=
  ∀ (x : Reg) (s : State), s.mem.wf = true → s.i.toNat + x.val < 4096 →
    ∃ t, exec (.ldMemVx x) s = .next t ∧
      (∀ k : Reg, k.val ≤ x.val → t.mem.read (s.dataAddr k.val) = s.reg k) ∧
      (∀ a, (∀ k : Reg, k.val ≤ x.val → a ≠ s.dataAddr k.val) → t.mem.read a = s.mem.read a) ∧
      t.i.toNat = (if s.cfg.lsAdvanceI = true then (s.i.toNat + x.val + 1) % 65536 else s.i.toNat) ∧
      SameBut [.mem, .i] s t

/-- FX65, with its block in memory: V0..Vx from I and up, the other registers as they were, and I
advanced by x + 1 mod 2^16 iff LS_ADVANCE_I (R215, R219). -/
def Obligations.LoadRegistersReadsTheBlock : Prop :=
  ∀ (x : Reg) (s : State), s.i.toNat + x.val < 4096 →
    ∃ t, exec (.ldVxMem x) s = .next t ∧
      (∀ k : Reg, k.val ≤ x.val → t.reg k = s.mem.read (s.dataAddr k.val)) ∧
      (∀ k : Reg, x.val < k.val → t.reg k = s.reg k) ∧
      t.i.toNat = (if s.cfg.lsAdvanceI = true then (s.i.toNat + x.val + 1) % 65536 else s.i.toNat) ∧
      SameBut [.v, .i] s t

/-- DXYN with N ≥ 1, FX33, FX55 and FX65 raise OutOfBounds when their block of n bytes from I runs out
of memory: at the first address of the block that is ≥ 4096. Nothing is written (R158, R214, R216, R219). -/
def Obligations.DataAccessOutOfRangeFaults : Prop :=
  ∀ (i : Instr) (n : Nat) (s : State),
    ((∃ x y m, i = .drw x y m ∧ n = m.val ∧ 1 ≤ n) ∨ (∃ x, i = .ldBVx x ∧ n = 3) ∨
      (∃ x, (i = .ldMemVx x ∨ i = .ldVxMem x) ∧ n = x.val + 1)) →
    4096 < s.i.toNat + n →
    exec i s = .next (faultedAt s .outOfBounds (encode i) (some (max s.i.toNat 0x1000)))

/-- Store then load with the same X, from I = A: if I advances, the load reads from A + X + 1 and I ends
at A + 2(X + 1), and the values come back, with I at A + X + 1, when I is set to A between the two; if I
does not advance, the pair gives the registers back and leaves I at A (R221; log entry 9). -/
def Obligations.StoreThenLoadRoundTrip : Prop :=
  ∀ (x : Reg) (s t u : State), s.mem.wf = true → s.i.toNat + x.val < 4096 →
    exec (.ldMemVx x) s = .next t → exec (.ldVxMem x) t = .next u →
    (s.cfg.lsAdvanceI = true → s.i.toNat + 2 * x.val + 1 < 4096 →
      (∀ k : Reg, k.val ≤ x.val → u.reg k = s.mem.read (s.i.toNat + x.val + 1 + k.val)) ∧
      u.i.toNat = s.i.toNat + 2 * (x.val + 1)) ∧
    (s.cfg.lsAdvanceI = true → ∀ nnn t' u', nnn.toNat = s.i.toNat →
      exec (.ldI nnn) t = .next t' → exec (.ldVxMem x) t' = .next u' →
      (∀ r, u'.reg r = s.reg r) ∧ u'.i.toNat = s.i.toNat + x.val + 1) ∧
    (s.cfg.lsAdvanceI = false → (∀ r, u.reg r = s.reg r) ∧ u.i = s.i)

/-! ### Keypad and timers (44_keypad_timers.md) -/

/-- SKP skips iff the key whose code is Vx is pressed, SKNP iff it is not; a code above 0xF names no
key, so SKP never and SKNP always skips; nothing but PC changes (R240, R241). -/
def Obligations.KeySkipsMovePc : Prop :=
  ∀ (x : Reg) (s : State),
    (∃ t, exec (.skp x) s = .next t ∧ SameBut [.pc] s t ∧
      t.pc.toNat = if (s.reg x).toNat ≤ 0xF ∧ s.keys.getLsbD (s.reg x).toNat = true
        then (s.pc.toNat + 2) % 65536 else s.pc.toNat) ∧
    (∃ t, exec (.sknp x) s = .next t ∧ SameBut [.pc] s t ∧
      t.pc.toNat = if (s.reg x).toNat ≤ 0xF ∧ s.keys.getLsbD (s.reg x).toNat = true
        then s.pc.toNat else (s.pc.toNat + 2) % 65536)

/-- FX0A with a key held puts the least pressed code in Vx in the same cycle and leaves run as it is;
with none held the core waits, Vx unchanged (R43, R244). -/
def Obligations.KeyLoadTakesTheLowestKeyOrWaits : Prop :=
  ∀ (x : Reg) (s : State),
    (∀ c : Reg, s.keys.getLsbD c.val = true → (∀ d : Reg, d.val < c.val → s.keys.getLsbD d.val = false) →
      ∃ t, exec (.ldVxK x) s = .next t ∧ (t.reg x).toNat = c.val ∧
        (∀ r, r ≠ x → t.reg r = s.reg r) ∧ SameBut [.v] s t) ∧
    (s.keys = 0 → ∃ t, exec (.ldVxK x) s = .next t ∧ t.run = .waitKey x ∧ SameBut [.run] s t)

/-- A cycle in WAIT_KEY(x) fetches nothing: with a key held it puts the least pressed code in Vx and the
core is RUNNING; with none held nothing changes (R245). What is scheduled after it does not matter. -/
def Obligations.WaitingCycleTakesAKeyOrChangesNothing : Prop :=
  ∀ (x : Reg) (s : State), s.run = .waitKey x →
    (∀ c : Reg, s.keys.getLsbD c.val = true → (∀ d : Reg, d.val < c.val → s.keys.getLsbD d.val = false) →
      ∃ t, executeCycle s = .next t ∧ (t.reg x).toNat = c.val ∧ t.run = .running ∧
        (∀ r, r ≠ x → t.reg r = s.reg r) ∧ SameBut [.v, .run] s t) ∧
    (s.keys = 0 → executeCycle s = .next s)

/-- FX07 reads DT into Vx, FX15 and FX18 write DT and ST from Vx; nothing else changes; sound_on is
(ST ≠ 0) afterwards as at every moment (R44, R243, R247, R248). -/
def Obligations.TimerRegisterMoves : Prop :=
  ∀ (x : Reg) (s : State),
    (∃ t, exec (.ldVxDt x) s = .next t ∧ t.reg x = s.dt ∧ (∀ r, r ≠ x → t.reg r = s.reg r) ∧ SameBut [.v] s t) ∧
    (∃ t, exec (.ldDtVx x) s = .next t ∧ t.dt = s.reg x ∧ SameBut [.dt] s t) ∧
    (∃ t, exec (.ldStVx x) s = .next t ∧ t.st = s.reg x ∧ (t.soundOn = true ↔ (s.reg x).toNat ≠ 0) ∧ SameBut [.st] s t)

/-- From v in DT, n delay ticks leave max(0, v - n), in every run state, and change nothing else: the
value an FX07 then reads (R38, R249, R281). -/
def Obligations.TicksCountDownToZero : Prop :=
  ∀ (n : Nat) (s : State), s.schedule = List.replicate n .tickDt →
    ∃ t, steps n s = .next t ∧ t.dt.toNat = s.dt.toNat - n ∧ t.schedule = [] ∧ SameBut [.dt, .schedule] s t

/-! ### Faults and events (60_exceptions.md) -/

/-- Faults are precise: after a cycle that faults, every element of the state but run holds what it held
before the faulting instruction's fetch, and the record's pc is that instruction's address. -/
def Obligations.FaultsArePrecise : Prop :=
  ∀ (s t : State) (info : FaultInfo), s.run = .running → executeCycle s = .next t → t.run = .faulted info →
    t = { s with run := .faulted info } ∧ info.pc = s.pc

/-- Which instruction raises which fault, and when: RET StackUnderflow on an empty stack; CALL
StackOverflow on a full one; DXYN, FX33, FX55 and FX65 OutOfBounds at an address ≥ 4096; no other (R271, R276). -/
def Obligations.FaultsHaveTheirCauses : Prop :=
  ∀ (i : Instr) (s t : State) (info : FaultInfo), exec i s = .next t → s.run = .running → t.run = .faulted info →
    info.opcode = some (encode i) ∧
    ((i = .ret ∧ s.stack = [] ∧ info.kind = .stackUnderflow ∧ info.addr = none) ∨
     ((∃ nnn, i = .call nnn) ∧ s.cfg.stackDepth = some s.stack.length ∧ info.kind = .stackOverflow ∧ info.addr = none) ∨
     (((∃ x y n, i = .drw x y n) ∨ ∃ x, i = .ldBVx x ∨ i = .ldMemVx x ∨ i = .ldVxMem x) ∧
       info.kind = .outOfBounds ∧ ∃ a, info.addr = some a ∧ 4096 ≤ a ∧ s.i.toNat ≤ a))

/-- A tick takes 1 from a timer above 0 and leaves a timer at 0; st_clear clears ST. Each changes its own timer only (R49, R281). -/
def Obligations.TimerEventsChangeTheirTimerOnly : Prop :=
  ∀ s : State,
    (∃ t, deliver .tickDt s = .next t ∧ t.dt.toNat = s.dt.toNat - 1 ∧ SameBut [.dt] s t) ∧
    (∃ t, deliver .tickSt s = .next t ∧ t.st.toNat = s.st.toNat - 1 ∧ SameBut [.st] s t) ∧
    (∃ t, deliver .stClear s = .next t ∧ t.st = 0#8 ∧ t.soundOn = false ∧ SameBut [.st] s t)

/-- key_enable(c) and key_disable(c) set and clear K[c] when c is in 0x0..0xF; for any other c they change nothing. -/
def Obligations.KeyEventsSetAndClearTheirKey : Prop :=
  ∀ (c : Nat) (s : State),
    (∃ t, deliver (.keyEnable c) s = .next t ∧
      (∀ d, d < 16 → t.keys.getLsbD d = if d = c then true else s.keys.getLsbD d) ∧ SameBut [.keys] s t) ∧
    (∃ t, deliver (.keyDisable c) s = .next t ∧
      (∀ d, d < 16 → t.keys.getLsbD d = if d = c then false else s.keys.getLsbD d) ∧ SameBut [.keys] s t) ∧
    (16 ≤ c → deliver (.keyEnable c) s = .next s ∧ deliver (.keyDisable c) s = .next s)

/-- The outputs the host reads at any moment: frame is FB, cell by cell; sound_on is (ST ≠ 0); the
status follows the run state (R44, R45, R46). -/
def Obligations.OutputsReadTheState : Prop :=
  ∀ s : State,
    s.frame.length = 2048 ∧
    (∀ row col, row < 32 → col < 64 → s.frame[row * 64 + col]? = some (pix s.fb (row * 64 + col))) ∧
    (s.soundOn = true ↔ s.st.toNat ≠ 0) ∧
    (s.run = .running → s.status = .ok) ∧
    (∀ x, s.run = .waitKey x → s.status = .needsInput) ∧
    (∀ info, s.run = .faulted info → s.status = .fault info)

/-- A byte the host puts on the random input changes nothing else, and the next CXNN draws it (R50, R187). -/
def Obligations.RandomByteFeedsTheNextDraw : Prop :=
  ∀ (b : Byte) (x : Reg) (nn : Byte) (s : State), s.rand = [] →
    ∃ t, deliver (.rand b) s = .next t ∧ SameBut [.rand] s t ∧
      ∃ u, exec (.rnd x nn) t = .next u ∧ u.reg x = b &&& nn ∧ u.rand = []

/-- A core on an idle self-jump stays exactly as it is: the cycle changes nothing, and the run has
ended for observation (R290 (b)). -/
def Obligations.IdleSelfJumpRepeats : Prop :=
  ∀ s : State, s.run = .running → selfJump s = true → executeCycle s = .next s ∧ endOfRun s = true

/-! ### Reset (70_reset_and_hazards.md) -/

/-- reset(rom) with a ROM that fits leaves every element at the value of R51's table: the ROM at 0x200,
the font image at 0 if the configuration has one, every other byte 0. The parameters stay (R6). -/
def Obligations.ResetLoadsTheRom : Prop :=
  ∀ (rom : List Byte) (s : State), s.cfg.wf = true → rom.length ≤ 3584 →
    ∃ t, deliver (.reset rom) s = .next t ∧
      (∀ r, t.reg r = 0#8) ∧ t.pc = 0x0200#16 ∧ t.i = 0#16 ∧ t.run = .running ∧ t.stack = [] ∧
      t.dt = 0#8 ∧ t.st = 0#8 ∧ t.fb = 0 ∧ t.keys = 0 ∧ t.soundOn = false ∧
      (∀ a, 0x200 ≤ a → a < 0x1000 → t.mem.read a = rom[a - 0x200]?.getD 0#8) ∧
      (∀ a, a < 0x200 → t.mem.read a = (s.cfg.fontImage.getD [])[a]?.getD 0#8) ∧
      t.cfg = s.cfg

/-- A ROM of length L loads iff 0x200 + L ≤ 4096 (R314): then its bytes are in memory from 0x200 on and
the core runs from there; else reset is refused and no state is changed. Which of the two it is, is
what the report says; that the report is a function of the ROM is the model's form (log entry 13). -/
def Obligations.TooLongRomIsRefused : Prop :=
  ∀ (rom : List Byte) (s : State),
    (romLoads rom = true ↔ 0x200 + rom.length ≤ 4096) ∧
    (romLoads rom = true → s.cfg.wf = true → ∃ t, deliver (.reset rom) s = .next t ∧
      t.run = .running ∧ t.pc = 0x0200#16 ∧ ∀ k b, rom[k]? = some b → t.mem.read (0x200 + k) = b) ∧
    (romLoads rom = false → deliver (.reset rom) s = .next s)

/-- State.reset is what reset leaves of the default configuration with no ROM: memory all zero, the
first fetch at 0x200, and the zero word there a SYS (R51, R313, R315). The model's choice (log
entry 4): a reset leaves the environment's own fields, the schedule and the random input, as they are. -/
def Obligations.ResetStateIsResetWithoutRom : Prop :=
  deliver (.reset []) State.reset = .next State.reset ∧
  (∀ a, State.reset.mem.read a = 0#8) ∧
  step State.reset = exec (.sys 0) { State.reset with pc := 0x0202#16 } ∧
  ∀ (rom : List Byte) (s t : State), deliver (.reset rom) s = .next t →
    t.schedule = s.schedule ∧ t.rand = s.rand ∧ t.draws = s.draws

/-! ### Executions and the end of a run (60_exceptions.md) -/

/-- The states of an execution are those of a run of step over its events, as far as they are planned:
every finite interleaving of the agents is a schedule (R72, R282; log entry 4). -/
def Obligations.EveryPrefixOfAnExecutionIsARunOfStep : Prop :=
  ∀ (x : Execution) (n : Nat), x.Follows →
    steps n ((x.state 0).setSchedule ((List.range n).map x.event)) = .next ((x.state n).setSchedule [])

/-- Weak fairness rules out no finite interleaving: from every state, any list of events begins a fair execution (R282). -/
def Obligations.AnyInterleavingBeginsAFairExecution : Prop :=
  ∀ (s : State) (l : List Event), ∃ x : Execution, x.Follows ∧ x.Fair ∧ x.state 0 = s ∧
    ∀ k e, l[k]? = some e → x.event k = e

/-- In a fair execution a wait for DT ends: if from n on no cycle changes DT, then DT reaches 0. The same of ST (R282). -/
def Obligations.FairExecutionsRunTheTimersDown : Prop :=
  ∀ (x : Execution) (n : Nat), x.Follows → x.Fair →
    ((∀ m, n ≤ m → x.event m = .cycle → (x.state (m + 1)).dt = (x.state m).dt) →
      ∃ m, n ≤ m ∧ (x.state m).dt = 0#8) ∧
    ((∀ m, n ≤ m → x.event m = .cycle → (x.state (m + 1)).st = (x.state m).st) →
      ∃ m, n ≤ m ∧ (x.state m).st = 0#8)

/-- A run ends, for observation, in FAULTED, at an idle self-jump, or waiting with no key held and no key
event left, whatever else is scheduled; what is observed is the first such state of the run (R290). -/
def Obligations.TheFirstEndOfTheRunIsObserved : Prop :=
  ∀ s : State,
    (endOfRun s = true ↔
      (∃ info, s.run = .faulted info) ∨
      (s.run = .running ∧ s.pc.toNat + 1 < 4096 ∧
        (wordOfBytes (s.mem.read s.pc.toNat) (s.mem.read (s.pc.toNat + 1))).toNat = 0x1000 + s.pc.toNat) ∨
      (∃ x, s.run = .waitKey x ∧ s.keys = 0 ∧ ∀ c, .keyEnable c ∉ s.schedule ∧ .keyDisable c ∉ s.schedule)) ∧
    ∀ (n : Nat) (t : State), observed n s = some t ↔
      ∃ m, m ≤ n ∧ steps m s = .next t ∧ endOfRun t = true ∧
        ∀ k u, k < m → steps k s = .next u → endOfRun u = false
end

