-- ==== Sys2Proof/Laws/Decode.lean ====
section
/-! SUPPORT. The fields of a word that a format was built from, and the word its own fields build;
what the decoder of each class answers. -/

namespace Sys2Proof

open BitVec

/-! ### Fields of formats -/

@[simp] theorem nibble_toFin (x : BitVec 4) : nibble x.toFin = x := rfl

@[simp] theorem toFin_nibble (x : Fin 16) : (nibble x).toFin = x := rfl

@[simp] theorem fieldOp_formatA (op : BitVec 4) (nnn : Addr) : fieldOp (formatA op nnn) = op :=
  extractLsb'_append_eq_left

@[simp] theorem fieldNNN_formatA (op : BitVec 4) (nnn : Addr) : fieldNNN (formatA op nnn) = nnn :=
  extractLsb'_append_eq_right

@[simp] theorem fieldOp_formatB (op : BitVec 4) (x : Reg) (nn : Byte) : fieldOp (formatB op x nn) = op :=
  (extractLsb'_append_eq_of_le (xhi := op ++ nibble x) (xlo := nn) (by decide)).trans extractLsb'_append_eq_left

@[simp] theorem fieldX_formatB (op : BitVec 4) (x : Reg) (nn : Byte) : fieldX (formatB op x nn) = x :=
  congrArg BitVec.toFin
    ((extractLsb'_append_eq_of_le (xhi := op ++ nibble x) (xlo := nn) (by decide)).trans extractLsb'_append_eq_right)

@[simp] theorem fieldNN_formatB (op : BitVec 4) (x : Reg) (nn : Byte) : fieldNN (formatB op x nn) = nn :=
  extractLsb'_append_eq_right

@[simp] theorem fieldOp_formatC (op : BitVec 4) (x y : Reg) (n : BitVec 4) : fieldOp (formatC op x y n) = op :=
  (extractLsb'_append_eq_of_le (xhi := op ++ nibble x ++ nibble y) (xlo := n) (by decide)).trans
    ((extractLsb'_append_eq_of_le (xhi := op ++ nibble x) (xlo := nibble y) (by decide)).trans extractLsb'_append_eq_left)

@[simp] theorem fieldX_formatC (op : BitVec 4) (x y : Reg) (n : BitVec 4) : fieldX (formatC op x y n) = x :=
  congrArg BitVec.toFin
    ((extractLsb'_append_eq_of_le (xhi := op ++ nibble x ++ nibble y) (xlo := n) (by decide)).trans
      ((extractLsb'_append_eq_of_le (xhi := op ++ nibble x) (xlo := nibble y) (by decide)).trans extractLsb'_append_eq_right))

@[simp] theorem fieldY_formatC (op : BitVec 4) (x y : Reg) (n : BitVec 4) : fieldY (formatC op x y n) = y :=
  congrArg BitVec.toFin
    ((extractLsb'_append_eq_of_le (xhi := op ++ nibble x ++ nibble y) (xlo := n) (by decide)).trans extractLsb'_append_eq_right)

@[simp] theorem fieldN_formatC (op : BitVec 4) (x y : Reg) (n : BitVec 4) : fieldN (formatC op x y n) = n :=
  extractLsb'_append_eq_right

/-! ### A word is built from its own fields -/

theorem formatA_fields (w : Word) : formatA (fieldOp w) (fieldNNN w) = w := by
  show extractLsb' 12 4 w ++ extractLsb' 0 12 w = w
  exact (extractLsb'_append_extractLsb'_eq_extractLsb' (by decide)).trans extractLsb'_eq_self

theorem formatB_fields (w : Word) : formatB (fieldOp w) (fieldX w) (fieldNN w) = w := by
  show extractLsb' 12 4 w ++ extractLsb' 8 4 w ++ extractLsb' 0 8 w = w
  rw [extractLsb'_append_extractLsb'_eq_extractLsb' (by decide)]
  exact (extractLsb'_append_extractLsb'_eq_extractLsb' (by decide)).trans extractLsb'_eq_self

theorem formatC_fields (w : Word) : formatC (fieldOp w) (fieldX w) (fieldY w) (fieldN w) = w := by
  show extractLsb' 12 4 w ++ extractLsb' 8 4 w ++ extractLsb' 4 4 w ++ extractLsb' 0 4 w = w
  rw [extractLsb'_append_extractLsb'_eq_extractLsb' (by decide),
    extractLsb'_append_extractLsb'_eq_extractLsb' (by decide)]
  exact (extractLsb'_append_extractLsb'_eq_extractLsb' (by decide)).trans extractLsb'_eq_self

/-- The word read from the two bytes it is stored as (R63). -/
@[simp] theorem wordOfBytes_high_low (w : Word) : wordOfBytes (highByte w) (lowByte w) = w := by
  show extractLsb' 8 8 w ++ extractLsb' 0 8 w = w
  exact (extractLsb'_append_extractLsb'_eq_extractLsb' (by decide)).trans extractLsb'_eq_self

@[simp] theorem highByte_wordOfBytes (hi lo : Byte) : highByte (wordOfBytes hi lo) = hi := extractLsb'_append_eq_left

@[simp] theorem lowByte_wordOfBytes (hi lo : Byte) : lowByte (wordOfBytes hi lo) = lo := extractLsb'_append_eq_right

/-! ### The fields as numbers, and formats compared field by field -/

theorem fieldOp_toNat (w : Word) : (fieldOp w).toNat = w.toNat / 4096 := by
  have := w.isLt
  simp [fieldOp, BitVec.extractLsb'_toNat, Nat.shiftRight_eq_div_pow]
  omega

theorem fieldN_toNat (w : Word) : (fieldN w).toNat = w.toNat % 16 := by
  simp [fieldN, BitVec.extractLsb'_toNat]

theorem fieldNN_toNat (w : Word) : (fieldNN w).toNat = w.toNat % 256 := by
  simp [fieldNN, BitVec.extractLsb'_toNat]

theorem formatB_inj (op op' : BitVec 4) (x x' : Reg) (nn nn' : Byte) :
    formatB op x nn = formatB op' x' nn' ↔ op = op' ∧ x = x' ∧ nn = nn' := by
  constructor
  · intro h
    exact ⟨by simpa using congrArg fieldOp h, by simpa using congrArg fieldX h, by simpa using congrArg fieldNN h⟩
  · rintro ⟨rfl, rfl, rfl⟩; rfl

theorem formatC_inj (op op' : BitVec 4) (x x' y y' : Reg) (n n' : BitVec 4) :
    formatC op x y n = formatC op' x' y' n' ↔ op = op' ∧ x = x' ∧ y = y' ∧ n = n' := by
  constructor
  · intro h
    exact ⟨by simpa using congrArg fieldOp h, by simpa using congrArg fieldX h, by simpa using congrArg fieldY h,
      by simpa using congrArg fieldN h⟩
  · rintro ⟨rfl, rfl, rfl, rfl⟩; rfl

/-! ### What the masks of the opcode table keep of a word (R96) -/

theorem mask_F000 (w : Word) : w &&& 0xF000#16 = formatA (fieldOp w) 0#12 := by
  apply BitVec.eq_of_getLsbD_eq
  intro j hj
  show _ = BitVec.getLsbD (w := 4 + 12) (fieldOp w ++ 0#12) j
  rw [BitVec.getLsbD_append]
  interval_cases j <;> simp [fieldOp]

theorem mask_F00F (w : Word) : w &&& 0xF00F#16 = formatC (fieldOp w) 0 0 (fieldN w) := by
  apply BitVec.eq_of_getLsbD_eq
  intro j hj
  show _ = BitVec.getLsbD (w := 4 + 4 + 4 + 4) (fieldOp w ++ 0#4 ++ 0#4 ++ fieldN w) j
  rw [BitVec.getLsbD_append, BitVec.getLsbD_append, BitVec.getLsbD_append]
  interval_cases j <;> simp [fieldOp, fieldN]

theorem mask_F0FF (w : Word) : w &&& 0xF0FF#16 = formatB (fieldOp w) 0 (fieldNN w) := by
  apply BitVec.eq_of_getLsbD_eq
  intro j hj
  show _ = BitVec.getLsbD (w := 4 + 4 + 8) (fieldOp w ++ 0#4 ++ fieldNN w) j
  rw [BitVec.getLsbD_append, BitVec.getLsbD_append]
  interval_cases j <;> simp [fieldOp, fieldNN]

theorem mask_FFFF (w : Word) : w &&& 0xFFFF#16 = w := BitVec.and_allOnes

/-! ### Words with the exact patterns of class 0 -/

theorem formatA_inj (op : BitVec 4) (a b : Addr) : formatA op a = formatA op b ↔ a = b :=
  ⟨fun h => by simpa using congrArg fieldNNN h, fun h => h ▸ rfl⟩

/-- Only the address 0x0E0 makes 0NNN the word of CLS. -/
@[simp] theorem formatA_eq_cls (nnn : Addr) : formatA 0x0#4 nnn = 0x00E0#16 ↔ nnn = 0x0E0#12 :=
  formatA_inj 0x0#4 nnn 0x0E0#12

/-- Only the address 0x0EE makes 0NNN the word of RET. -/
@[simp] theorem formatA_eq_ret (nnn : Addr) : formatA 0x0#4 nnn = 0x00EE#16 ↔ nnn = 0x0EE#12 :=
  formatA_inj 0x0#4 nnn 0x0EE#12

/-! ### The decoder, class by class -/

theorem decode_formatA_zero (nnn : Addr) (h : (Instr.sys nnn).wf = true) : decode (formatA 0x0#4 nnn) = .ok (.sys nnn) := by
  simp [Instr.wf] at h
  simp [decode, decodeClass0, h]

end Sys2Proof
end

