-- ==== Sys2Proof/Laws/Memory.lean ====
section
/-! SUPPORT. Memory: a read after a write, the canonical form and who keeps it, and what a block of
loads or stores can do. -/

namespace Sys2Proof.Machine

/-! ### The canonical form -/

@[simp] theorem Memory.read_nil (a : Nat) : Memory.read [] a = 0x00#8 := rfl

theorem Memory.read_cons (b : Nat) (w : Byte) (m : Memory) (a : Nat) :
    Memory.read ((b, w) :: m) a = if a = b then w else m.read a := rfl

theorem Memory.wfFrom_cons (lo a : Nat) (v : Byte) (m : Memory) :
    Memory.wfFrom lo ((a, v) :: m) = true ↔ lo ≤ a ∧ a < memSize ∧ v ≠ 0x00#8 ∧ Memory.wfFrom (a + 1) m = true := by
  simp only [Memory.wfFrom, Bool.and_eq_true, decide_eq_true_eq, and_assoc]
  exact Iff.rfl

theorem Memory.wfFrom_mono (m : Memory) (lo lo' : Nat) (hle : lo' ≤ lo) (h : m.wfFrom lo = true) : m.wfFrom lo' = true := by
  cases m with
  | nil => rfl
  | cons c m =>
    obtain ⟨a, v⟩ := c
    rw [Memory.wfFrom_cons] at h ⊢
    exact ⟨by omega, h.2⟩

/-- Below the first address of the form, memory reads as unlisted. -/
theorem Memory.read_below (m : Memory) (lo a : Nat) (h : m.wfFrom lo = true) (ha : a < lo) : m.read a = 0x00#8 := by
  induction m generalizing lo with
  | nil => rfl
  | cons c m ih =>
    obtain ⟨b, v⟩ := c
    rw [Memory.wfFrom_cons] at h
    rw [Memory.read_cons, if_neg (by omega)]
    exact ih (b + 1) h.2.2.2 (by omega)

/-- A canonical memory lists nothing from 4096 on. -/
theorem Memory.read_outside (m : Memory) (lo a : Nat) (h : m.wfFrom lo = true) (ha : memSize ≤ a) : m.read a = 0x00#8 := by
  induction m generalizing lo with
  | nil => rfl
  | cons c m ih =>
    obtain ⟨b, v⟩ := c
    rw [Memory.wfFrom_cons] at h
    rw [Memory.read_cons, if_neg (by omega)]
    exact ih (b + 1) h.2.2.2

/-! ### A write -/

theorem Memory.read_consCell (a b : Nat) (v : Byte) (m : Memory) (h : m.read a = 0x00#8) :
    (Memory.consCell a v m).read b = if b = a then v else m.read b := by
  unfold Memory.consCell
  split
  · rename_i hv
    split
    · subst_vars; exact h
    · rfl
  · rfl

theorem Memory.wfFrom_consCell (lo a : Nat) (v : Byte) (m : Memory) (h : m.wfFrom (a + 1) = true) (hlo : lo ≤ a)
    (ha : a < memSize) : (Memory.consCell a v m).wfFrom lo = true := by
  unfold Memory.consCell
  split
  · exact m.wfFrom_mono (a + 1) lo (by omega) h
  · rename_i hv
    exact (Memory.wfFrom_cons lo a v m).2 ⟨hlo, ha, hv, h⟩

theorem Memory.wfFrom_write (m : Memory) (lo a : Nat) (v : Byte) (h : m.wfFrom lo = true) (hlo : lo ≤ a) (ha : a < memSize) :
    (m.write a v).wfFrom lo = true := by
  induction m generalizing lo with
  | nil => exact Memory.wfFrom_consCell lo a v [] rfl hlo ha
  | cons c m ih =>
    obtain ⟨b, w⟩ := c
    have hc := (Memory.wfFrom_cons lo b w m).1 h
    simp only [Memory.write]
    split
    · rename_i hlt
      exact Memory.wfFrom_consCell lo a v _ ((Memory.wfFrom_cons _ _ _ _).2 ⟨hlt, hc.2⟩) hlo ha
    · split
      · rename_i _ heq
        subst heq
        exact Memory.wfFrom_consCell lo a v m hc.2.2.2 hlo ha
      · exact (Memory.wfFrom_cons _ _ _ _).2 ⟨hc.1, hc.2.1, hc.2.2.1, ih (b + 1) hc.2.2.2 (by omega)⟩

/-- Every write below MEM_SIZE keeps the canonical form. -/
theorem Memory.write_wf (m : Memory) (a : Nat) (v : Byte) (h : m.wf = true) (ha : a < memSize) : (m.write a v).wf = true :=
  m.wfFrom_write 0 a v h (by omega) ha

theorem Memory.read_write_from (m : Memory) (lo a b : Nat) (v : Byte) (h : m.wfFrom lo = true) :
    (m.write a v).read b = if b = a then v else m.read b := by
  induction m generalizing lo with
  | nil => exact Memory.read_consCell a b v [] rfl
  | cons c m ih =>
    obtain ⟨d, w⟩ := c
    have hc := (Memory.wfFrom_cons lo d w m).1 h
    simp only [Memory.write]
    split
    · rename_i hlt
      refine Memory.read_consCell a b v _ (Memory.read_below _ d a ?_ hlt)
      exact (Memory.wfFrom_cons _ _ _ _).2 ⟨by omega, hc.2⟩
    · split
      · rename_i _ heq
        subst heq
        rw [Memory.read_consCell a b v m (Memory.read_below m (a + 1) a hc.2.2.2 (by omega)), Memory.read_cons]
        split <;> simp_all
      · rename_i _ hne
        rw [Memory.read_cons, Memory.read_cons, ih (d + 1) hc.2.2.2]
        split <;> split <;> simp_all

/-- A read after a write: the byte written at its own address, the old byte everywhere else (R71). -/
theorem Memory.read_write (m : Memory) (a b : Nat) (v : Byte) (h : m.wf = true) :
    (m.write a v).read b = if b = a then v else m.read b :=
  m.read_write_from 0 a b v h

/-! ### Blocks -/

theorem Memory.writeBytes_wf (bs : List Byte) (m : Memory) (a : Nat) (h : m.wf = true) (ha : a + bs.length ≤ memSize) :
    (m.writeBytes a bs).wf = true := by
  induction bs generalizing m a with
  | nil => exact h
  | cons b rest ih =>
    simp only [List.length_cons] at ha
    exact ih (m.write a b) (a + 1) (m.write_wf a b h (by omega)) (by omega)

/-- A block written in place: byte k at a + k, the old byte everywhere else. -/
theorem Memory.read_writeBytes (bs : List Byte) (m : Memory) (a b : Nat) (h : m.wf = true) (ha : a + bs.length ≤ memSize) :
    (m.writeBytes a bs).read b = if a ≤ b then bs[b - a]?.getD (m.read b) else m.read b := by
  induction bs generalizing m a with
  | nil => simp [Memory.writeBytes]
  | cons v rest ih =>
    simp only [List.length_cons] at ha
    rw [Memory.writeBytes, ih (m.write a v) (a + 1) (m.write_wf a v h (by omega)) (by omega), m.read_write a b v h]
    obtain hlt | rfl | hgt := Nat.lt_trichotomy b a
    · simp [show ¬ a + 1 ≤ b by omega, show ¬ a ≤ b by omega, show b ≠ a by omega]
    · simp [show ¬ b + 1 ≤ b by omega]
    · obtain ⟨d, rfl⟩ : ∃ d, b = a + d + 1 := ⟨b - a - 1, by omega⟩
      simp [show a + d + 1 - (a + 1) = d by omega, show a + d + 1 - a = d + 1 by omega,
        show a + 1 ≤ a + d + 1 by omega, show a ≤ a + d + 1 by omega, show a + d + 1 ≠ a by omega]

theorem memRead_ok (m : Memory) (a : Nat) (h : a < memSize) : memRead m a = .ok (m.read a) :=
  if_neg (by omega)

theorem memRead_error (m : Memory) (a : Nat) (h : memSize ≤ a) : memRead m a = .error (.outOfBounds a) :=
  if_pos h

theorem memWrite_ok (m : Memory) (a : Nat) (v : Byte) (h : a < memSize) : memWrite m a v = .ok (m.write a v) :=
  if_neg (by omega)

theorem memWrite_error (m : Memory) (a : Nat) (v : Byte) (h : memSize ≤ a) : memWrite m a v = .error (.outOfBounds a) :=
  if_pos h

/-- The bytes of a block in memory. -/
def Memory.block (m : Memory) (a n : Nat) : List Byte := (List.range n).map fun k => m.read (a + k)

@[simp] theorem Memory.block_length (m : Memory) (a n : Nat) : (m.block a n).length = n := by simp [Memory.block]

theorem Memory.block_get (m : Memory) (a n k : Nat) : (m.block a n)[k]? = if k < n then some (m.read (a + k)) else none := by
  simp only [Memory.block, List.getElem?_map]
  by_cases h : k < n <;> simp [h]

theorem Memory.block_succ (m : Memory) (a n : Nat) : m.block a (n + 1) = m.read a :: m.block (a + 1) n := by
  simp only [Memory.block, List.range_succ_eq_map, List.map_cons, List.map_map]
  simp [Nat.add_comm, Nat.add_left_comm, Function.comp_def]

/-- A load of a block that lies in memory gives its bytes. -/
theorem loadBytes_ok (m : Memory) (a n : Nat) (h : n = 0 ∨ a + n ≤ memSize) : loadBytes m a n = .ok (m.block a n) := by
  induction n generalizing a with
  | zero => rfl
  | succ n ih =>
    rw [loadBytes, memRead_ok m a (by omega), ih (a + 1) (by omega), Memory.block_succ]
    rfl

/-- A load that runs out of memory reports the first address that is out of range. -/
theorem loadBytes_error (m : Memory) (a n : Nat) (hn : 0 < n) (h : memSize < a + n) :
    loadBytes m a n = .error (.outOfBounds (max a memSize)) := by
  induction n generalizing a with
  | zero => omega
  | succ n ih =>
    rw [loadBytes]
    by_cases ha : memSize ≤ a
    · rw [memRead_error m a ha, Nat.max_eq_left ha]; rfl
    · rw [memRead_ok m a (by omega), ih (a + 1) (by omega) (by omega)]
      have : max (a + 1) memSize = max a memSize := by omega
      rw [this]; rfl

/-- A store of a block that lies in memory writes it. -/
theorem storeBytes_ok (bs : List Byte) (m : Memory) (a : Nat) (h : bs = [] ∨ a + bs.length ≤ memSize) :
    storeBytes m a bs = .ok (m.writeBytes a bs) := by
  induction bs generalizing m a with
  | nil => rfl
  | cons b rest ih =>
    simp only [List.length_cons, reduceCtorEq, false_or] at h
    rw [storeBytes, memWrite_ok m a b (by omega)]
    exact ih (m.write a b) (a + 1) (by omega)

/-- A store that runs out of memory reports the first address that is out of range. -/
theorem storeBytes_error (bs : List Byte) (m : Memory) (a : Nat) (hn : bs ≠ []) (h : memSize < a + bs.length) :
    storeBytes m a bs = .error (.outOfBounds (max a memSize)) := by
  induction bs generalizing m a with
  | nil => exact absurd rfl hn
  | cons b rest ih =>
    simp only [List.length_cons] at h
    rw [storeBytes]
    by_cases ha : memSize ≤ a
    · rw [memWrite_error m a b ha, Nat.max_eq_left ha]; rfl
    · rw [memWrite_ok m a b (by omega)]
      have hr : rest ≠ [] := by rintro rfl; simp at h; omega
      have : max (a + 1) memSize = max a memSize := by omega
      exact (ih (m.write a b) (a + 1) hr (by omega)).trans (by rw [this])

end Sys2Proof.Machine
end

