-- ==== Sys2Proof/Laws/State.lean ====
section
/-! SUPPORT. What each update of the state leaves in each field: one lemma per field per update,
true by rfl, and the registers after an update. No later proof unfolds a record update. -/

namespace Sys2Proof.Machine

/-! ### setReg -/

@[simp] theorem setReg_pc (s : State) (x : Reg) (b : Byte) : (s.setReg x b).pc = s.pc := rfl
@[simp] theorem setReg_i (s : State) (x : Reg) (b : Byte) : (s.setReg x b).i = s.i := rfl
@[simp] theorem setReg_run (s : State) (x : Reg) (b : Byte) : (s.setReg x b).run = s.run := rfl
@[simp] theorem setReg_stack (s : State) (x : Reg) (b : Byte) : (s.setReg x b).stack = s.stack := rfl
@[simp] theorem setReg_mem (s : State) (x : Reg) (b : Byte) : (s.setReg x b).mem = s.mem := rfl
@[simp] theorem setReg_dt (s : State) (x : Reg) (b : Byte) : (s.setReg x b).dt = s.dt := rfl
@[simp] theorem setReg_st (s : State) (x : Reg) (b : Byte) : (s.setReg x b).st = s.st := rfl
@[simp] theorem setReg_fb (s : State) (x : Reg) (b : Byte) : (s.setReg x b).fb = s.fb := rfl
@[simp] theorem setReg_keys (s : State) (x : Reg) (b : Byte) : (s.setReg x b).keys = s.keys := rfl
@[simp] theorem setReg_cfg (s : State) (x : Reg) (b : Byte) : (s.setReg x b).cfg = s.cfg := rfl
@[simp] theorem setReg_schedule (s : State) (x : Reg) (b : Byte) : (s.setReg x b).schedule = s.schedule := rfl
@[simp] theorem setReg_rand (s : State) (x : Reg) (b : Byte) : (s.setReg x b).rand = s.rand := rfl
@[simp] theorem setReg_draws (s : State) (x : Reg) (b : Byte) : (s.setReg x b).draws = s.draws := rfl

/-! ### setRegs -/

@[simp] theorem setRegs_pc (s : State) (bs : List Byte) : (s.setRegs bs).pc = s.pc := rfl
@[simp] theorem setRegs_i (s : State) (bs : List Byte) : (s.setRegs bs).i = s.i := rfl
@[simp] theorem setRegs_run (s : State) (bs : List Byte) : (s.setRegs bs).run = s.run := rfl
@[simp] theorem setRegs_stack (s : State) (bs : List Byte) : (s.setRegs bs).stack = s.stack := rfl
@[simp] theorem setRegs_mem (s : State) (bs : List Byte) : (s.setRegs bs).mem = s.mem := rfl
@[simp] theorem setRegs_dt (s : State) (bs : List Byte) : (s.setRegs bs).dt = s.dt := rfl
@[simp] theorem setRegs_st (s : State) (bs : List Byte) : (s.setRegs bs).st = s.st := rfl
@[simp] theorem setRegs_fb (s : State) (bs : List Byte) : (s.setRegs bs).fb = s.fb := rfl
@[simp] theorem setRegs_keys (s : State) (bs : List Byte) : (s.setRegs bs).keys = s.keys := rfl
@[simp] theorem setRegs_cfg (s : State) (bs : List Byte) : (s.setRegs bs).cfg = s.cfg := rfl
@[simp] theorem setRegs_schedule (s : State) (bs : List Byte) : (s.setRegs bs).schedule = s.schedule := rfl
@[simp] theorem setRegs_rand (s : State) (bs : List Byte) : (s.setRegs bs).rand = s.rand := rfl
@[simp] theorem setRegs_draws (s : State) (bs : List Byte) : (s.setRegs bs).draws = s.draws := rfl

/-! ### setPc -/

@[simp] theorem setPc_v (s : State) (p : Word) : (s.setPc p).v = s.v := rfl
@[simp] theorem setPc_pc (s : State) (p : Word) : (s.setPc p).pc = p := rfl
@[simp] theorem setPc_i (s : State) (p : Word) : (s.setPc p).i = s.i := rfl
@[simp] theorem setPc_run (s : State) (p : Word) : (s.setPc p).run = s.run := rfl
@[simp] theorem setPc_stack (s : State) (p : Word) : (s.setPc p).stack = s.stack := rfl
@[simp] theorem setPc_mem (s : State) (p : Word) : (s.setPc p).mem = s.mem := rfl
@[simp] theorem setPc_dt (s : State) (p : Word) : (s.setPc p).dt = s.dt := rfl
@[simp] theorem setPc_st (s : State) (p : Word) : (s.setPc p).st = s.st := rfl
@[simp] theorem setPc_fb (s : State) (p : Word) : (s.setPc p).fb = s.fb := rfl
@[simp] theorem setPc_keys (s : State) (p : Word) : (s.setPc p).keys = s.keys := rfl
@[simp] theorem setPc_cfg (s : State) (p : Word) : (s.setPc p).cfg = s.cfg := rfl
@[simp] theorem setPc_schedule (s : State) (p : Word) : (s.setPc p).schedule = s.schedule := rfl
@[simp] theorem setPc_rand (s : State) (p : Word) : (s.setPc p).rand = s.rand := rfl
@[simp] theorem setPc_draws (s : State) (p : Word) : (s.setPc p).draws = s.draws := rfl
@[simp] theorem setPc_reg (s : State) (p : Word) (r : Reg) : (s.setPc p).reg r = s.reg r := rfl

/-! ### setI -/

@[simp] theorem setI_v (s : State) (p : Word) : (s.setI p).v = s.v := rfl
@[simp] theorem setI_pc (s : State) (p : Word) : (s.setI p).pc = s.pc := rfl
@[simp] theorem setI_i (s : State) (p : Word) : (s.setI p).i = p := rfl
@[simp] theorem setI_run (s : State) (p : Word) : (s.setI p).run = s.run := rfl
@[simp] theorem setI_stack (s : State) (p : Word) : (s.setI p).stack = s.stack := rfl
@[simp] theorem setI_mem (s : State) (p : Word) : (s.setI p).mem = s.mem := rfl
@[simp] theorem setI_dt (s : State) (p : Word) : (s.setI p).dt = s.dt := rfl
@[simp] theorem setI_st (s : State) (p : Word) : (s.setI p).st = s.st := rfl
@[simp] theorem setI_fb (s : State) (p : Word) : (s.setI p).fb = s.fb := rfl
@[simp] theorem setI_keys (s : State) (p : Word) : (s.setI p).keys = s.keys := rfl
@[simp] theorem setI_cfg (s : State) (p : Word) : (s.setI p).cfg = s.cfg := rfl
@[simp] theorem setI_schedule (s : State) (p : Word) : (s.setI p).schedule = s.schedule := rfl
@[simp] theorem setI_rand (s : State) (p : Word) : (s.setI p).rand = s.rand := rfl
@[simp] theorem setI_draws (s : State) (p : Word) : (s.setI p).draws = s.draws := rfl
@[simp] theorem setI_reg (s : State) (p : Word) (r : Reg) : (s.setI p).reg r = s.reg r := rfl

/-! ### setRun -/

@[simp] theorem setRun_v (s : State) (r : RunState) : (s.setRun r).v = s.v := rfl
@[simp] theorem setRun_pc (s : State) (r : RunState) : (s.setRun r).pc = s.pc := rfl
@[simp] theorem setRun_i (s : State) (r : RunState) : (s.setRun r).i = s.i := rfl
@[simp] theorem setRun_run (s : State) (r : RunState) : (s.setRun r).run = r := rfl
@[simp] theorem setRun_stack (s : State) (r : RunState) : (s.setRun r).stack = s.stack := rfl
@[simp] theorem setRun_mem (s : State) (r : RunState) : (s.setRun r).mem = s.mem := rfl
@[simp] theorem setRun_dt (s : State) (r : RunState) : (s.setRun r).dt = s.dt := rfl
@[simp] theorem setRun_st (s : State) (r : RunState) : (s.setRun r).st = s.st := rfl
@[simp] theorem setRun_fb (s : State) (r : RunState) : (s.setRun r).fb = s.fb := rfl
@[simp] theorem setRun_keys (s : State) (r : RunState) : (s.setRun r).keys = s.keys := rfl
@[simp] theorem setRun_cfg (s : State) (r : RunState) : (s.setRun r).cfg = s.cfg := rfl
@[simp] theorem setRun_schedule (s : State) (r : RunState) : (s.setRun r).schedule = s.schedule := rfl
@[simp] theorem setRun_rand (s : State) (r : RunState) : (s.setRun r).rand = s.rand := rfl
@[simp] theorem setRun_draws (s : State) (r : RunState) : (s.setRun r).draws = s.draws := rfl
@[simp] theorem setRun_reg (s : State) (r : RunState) (x : Reg) : (s.setRun r).reg x = s.reg x := rfl

/-! ### setStack -/

@[simp] theorem setStack_v (s : State) (l : List Word) : (s.setStack l).v = s.v := rfl
@[simp] theorem setStack_pc (s : State) (l : List Word) : (s.setStack l).pc = s.pc := rfl
@[simp] theorem setStack_i (s : State) (l : List Word) : (s.setStack l).i = s.i := rfl
@[simp] theorem setStack_run (s : State) (l : List Word) : (s.setStack l).run = s.run := rfl
@[simp] theorem setStack_stack (s : State) (l : List Word) : (s.setStack l).stack = l := rfl
@[simp] theorem setStack_mem (s : State) (l : List Word) : (s.setStack l).mem = s.mem := rfl
@[simp] theorem setStack_dt (s : State) (l : List Word) : (s.setStack l).dt = s.dt := rfl
@[simp] theorem setStack_st (s : State) (l : List Word) : (s.setStack l).st = s.st := rfl
@[simp] theorem setStack_fb (s : State) (l : List Word) : (s.setStack l).fb = s.fb := rfl
@[simp] theorem setStack_keys (s : State) (l : List Word) : (s.setStack l).keys = s.keys := rfl
@[simp] theorem setStack_cfg (s : State) (l : List Word) : (s.setStack l).cfg = s.cfg := rfl
@[simp] theorem setStack_schedule (s : State) (l : List Word) : (s.setStack l).schedule = s.schedule := rfl
@[simp] theorem setStack_rand (s : State) (l : List Word) : (s.setStack l).rand = s.rand := rfl
@[simp] theorem setStack_draws (s : State) (l : List Word) : (s.setStack l).draws = s.draws := rfl
@[simp] theorem setStack_reg (s : State) (l : List Word) (r : Reg) : (s.setStack l).reg r = s.reg r := rfl

/-! ### setMem -/

@[simp] theorem setMem_v (s : State) (m : Memory) : (s.setMem m).v = s.v := rfl
@[simp] theorem setMem_pc (s : State) (m : Memory) : (s.setMem m).pc = s.pc := rfl
@[simp] theorem setMem_i (s : State) (m : Memory) : (s.setMem m).i = s.i := rfl
@[simp] theorem setMem_run (s : State) (m : Memory) : (s.setMem m).run = s.run := rfl
@[simp] theorem setMem_stack (s : State) (m : Memory) : (s.setMem m).stack = s.stack := rfl
@[simp] theorem setMem_mem (s : State) (m : Memory) : (s.setMem m).mem = m := rfl
@[simp] theorem setMem_dt (s : State) (m : Memory) : (s.setMem m).dt = s.dt := rfl
@[simp] theorem setMem_st (s : State) (m : Memory) : (s.setMem m).st = s.st := rfl
@[simp] theorem setMem_fb (s : State) (m : Memory) : (s.setMem m).fb = s.fb := rfl
@[simp] theorem setMem_keys (s : State) (m : Memory) : (s.setMem m).keys = s.keys := rfl
@[simp] theorem setMem_cfg (s : State) (m : Memory) : (s.setMem m).cfg = s.cfg := rfl
@[simp] theorem setMem_schedule (s : State) (m : Memory) : (s.setMem m).schedule = s.schedule := rfl
@[simp] theorem setMem_rand (s : State) (m : Memory) : (s.setMem m).rand = s.rand := rfl
@[simp] theorem setMem_draws (s : State) (m : Memory) : (s.setMem m).draws = s.draws := rfl
@[simp] theorem setMem_reg (s : State) (m : Memory) (r : Reg) : (s.setMem m).reg r = s.reg r := rfl

/-! ### setDt -/

@[simp] theorem setDt_v (s : State) (b : Byte) : (s.setDt b).v = s.v := rfl
@[simp] theorem setDt_pc (s : State) (b : Byte) : (s.setDt b).pc = s.pc := rfl
@[simp] theorem setDt_i (s : State) (b : Byte) : (s.setDt b).i = s.i := rfl
@[simp] theorem setDt_run (s : State) (b : Byte) : (s.setDt b).run = s.run := rfl
@[simp] theorem setDt_stack (s : State) (b : Byte) : (s.setDt b).stack = s.stack := rfl
@[simp] theorem setDt_mem (s : State) (b : Byte) : (s.setDt b).mem = s.mem := rfl
@[simp] theorem setDt_dt (s : State) (b : Byte) : (s.setDt b).dt = b := rfl
@[simp] theorem setDt_st (s : State) (b : Byte) : (s.setDt b).st = s.st := rfl
@[simp] theorem setDt_fb (s : State) (b : Byte) : (s.setDt b).fb = s.fb := rfl
@[simp] theorem setDt_keys (s : State) (b : Byte) : (s.setDt b).keys = s.keys := rfl
@[simp] theorem setDt_cfg (s : State) (b : Byte) : (s.setDt b).cfg = s.cfg := rfl
@[simp] theorem setDt_schedule (s : State) (b : Byte) : (s.setDt b).schedule = s.schedule := rfl
@[simp] theorem setDt_rand (s : State) (b : Byte) : (s.setDt b).rand = s.rand := rfl
@[simp] theorem setDt_draws (s : State) (b : Byte) : (s.setDt b).draws = s.draws := rfl
@[simp] theorem setDt_reg (s : State) (b : Byte) (r : Reg) : (s.setDt b).reg r = s.reg r := rfl

/-! ### setSt -/

@[simp] theorem setSt_v (s : State) (b : Byte) : (s.setSt b).v = s.v := rfl
@[simp] theorem setSt_pc (s : State) (b : Byte) : (s.setSt b).pc = s.pc := rfl
@[simp] theorem setSt_i (s : State) (b : Byte) : (s.setSt b).i = s.i := rfl
@[simp] theorem setSt_run (s : State) (b : Byte) : (s.setSt b).run = s.run := rfl
@[simp] theorem setSt_stack (s : State) (b : Byte) : (s.setSt b).stack = s.stack := rfl
@[simp] theorem setSt_mem (s : State) (b : Byte) : (s.setSt b).mem = s.mem := rfl
@[simp] theorem setSt_dt (s : State) (b : Byte) : (s.setSt b).dt = s.dt := rfl
@[simp] theorem setSt_st (s : State) (b : Byte) : (s.setSt b).st = b := rfl
@[simp] theorem setSt_fb (s : State) (b : Byte) : (s.setSt b).fb = s.fb := rfl
@[simp] theorem setSt_keys (s : State) (b : Byte) : (s.setSt b).keys = s.keys := rfl
@[simp] theorem setSt_cfg (s : State) (b : Byte) : (s.setSt b).cfg = s.cfg := rfl
@[simp] theorem setSt_schedule (s : State) (b : Byte) : (s.setSt b).schedule = s.schedule := rfl
@[simp] theorem setSt_rand (s : State) (b : Byte) : (s.setSt b).rand = s.rand := rfl
@[simp] theorem setSt_draws (s : State) (b : Byte) : (s.setSt b).draws = s.draws := rfl
@[simp] theorem setSt_reg (s : State) (b : Byte) (r : Reg) : (s.setSt b).reg r = s.reg r := rfl

/-! ### setFb -/

@[simp] theorem setFb_v (s : State) (f : Frame) : (s.setFb f).v = s.v := rfl
@[simp] theorem setFb_pc (s : State) (f : Frame) : (s.setFb f).pc = s.pc := rfl
@[simp] theorem setFb_i (s : State) (f : Frame) : (s.setFb f).i = s.i := rfl
@[simp] theorem setFb_run (s : State) (f : Frame) : (s.setFb f).run = s.run := rfl
@[simp] theorem setFb_stack (s : State) (f : Frame) : (s.setFb f).stack = s.stack := rfl
@[simp] theorem setFb_mem (s : State) (f : Frame) : (s.setFb f).mem = s.mem := rfl
@[simp] theorem setFb_dt (s : State) (f : Frame) : (s.setFb f).dt = s.dt := rfl
@[simp] theorem setFb_st (s : State) (f : Frame) : (s.setFb f).st = s.st := rfl
@[simp] theorem setFb_fb (s : State) (f : Frame) : (s.setFb f).fb = f := rfl
@[simp] theorem setFb_keys (s : State) (f : Frame) : (s.setFb f).keys = s.keys := rfl
@[simp] theorem setFb_cfg (s : State) (f : Frame) : (s.setFb f).cfg = s.cfg := rfl
@[simp] theorem setFb_schedule (s : State) (f : Frame) : (s.setFb f).schedule = s.schedule := rfl
@[simp] theorem setFb_rand (s : State) (f : Frame) : (s.setFb f).rand = s.rand := rfl
@[simp] theorem setFb_draws (s : State) (f : Frame) : (s.setFb f).draws = s.draws := rfl
@[simp] theorem setFb_reg (s : State) (f : Frame) (r : Reg) : (s.setFb f).reg r = s.reg r := rfl

/-! ### setKeys -/

@[simp] theorem setKeys_v (s : State) (k : Keypad) : (s.setKeys k).v = s.v := rfl
@[simp] theorem setKeys_pc (s : State) (k : Keypad) : (s.setKeys k).pc = s.pc := rfl
@[simp] theorem setKeys_i (s : State) (k : Keypad) : (s.setKeys k).i = s.i := rfl
@[simp] theorem setKeys_run (s : State) (k : Keypad) : (s.setKeys k).run = s.run := rfl
@[simp] theorem setKeys_stack (s : State) (k : Keypad) : (s.setKeys k).stack = s.stack := rfl
@[simp] theorem setKeys_mem (s : State) (k : Keypad) : (s.setKeys k).mem = s.mem := rfl
@[simp] theorem setKeys_dt (s : State) (k : Keypad) : (s.setKeys k).dt = s.dt := rfl
@[simp] theorem setKeys_st (s : State) (k : Keypad) : (s.setKeys k).st = s.st := rfl
@[simp] theorem setKeys_fb (s : State) (k : Keypad) : (s.setKeys k).fb = s.fb := rfl
@[simp] theorem setKeys_keys (s : State) (k : Keypad) : (s.setKeys k).keys = k := rfl
@[simp] theorem setKeys_cfg (s : State) (k : Keypad) : (s.setKeys k).cfg = s.cfg := rfl
@[simp] theorem setKeys_schedule (s : State) (k : Keypad) : (s.setKeys k).schedule = s.schedule := rfl
@[simp] theorem setKeys_rand (s : State) (k : Keypad) : (s.setKeys k).rand = s.rand := rfl
@[simp] theorem setKeys_draws (s : State) (k : Keypad) : (s.setKeys k).draws = s.draws := rfl
@[simp] theorem setKeys_reg (s : State) (k : Keypad) (r : Reg) : (s.setKeys k).reg r = s.reg r := rfl

/-! ### setSchedule -/

@[simp] theorem setSchedule_v (s : State) (l : List Event) : (s.setSchedule l).v = s.v := rfl
@[simp] theorem setSchedule_pc (s : State) (l : List Event) : (s.setSchedule l).pc = s.pc := rfl
@[simp] theorem setSchedule_i (s : State) (l : List Event) : (s.setSchedule l).i = s.i := rfl
@[simp] theorem setSchedule_run (s : State) (l : List Event) : (s.setSchedule l).run = s.run := rfl
@[simp] theorem setSchedule_stack (s : State) (l : List Event) : (s.setSchedule l).stack = s.stack := rfl
@[simp] theorem setSchedule_mem (s : State) (l : List Event) : (s.setSchedule l).mem = s.mem := rfl
@[simp] theorem setSchedule_dt (s : State) (l : List Event) : (s.setSchedule l).dt = s.dt := rfl
@[simp] theorem setSchedule_st (s : State) (l : List Event) : (s.setSchedule l).st = s.st := rfl
@[simp] theorem setSchedule_fb (s : State) (l : List Event) : (s.setSchedule l).fb = s.fb := rfl
@[simp] theorem setSchedule_keys (s : State) (l : List Event) : (s.setSchedule l).keys = s.keys := rfl
@[simp] theorem setSchedule_cfg (s : State) (l : List Event) : (s.setSchedule l).cfg = s.cfg := rfl
@[simp] theorem setSchedule_schedule (s : State) (l : List Event) : (s.setSchedule l).schedule = l := rfl
@[simp] theorem setSchedule_rand (s : State) (l : List Event) : (s.setSchedule l).rand = s.rand := rfl
@[simp] theorem setSchedule_draws (s : State) (l : List Event) : (s.setSchedule l).draws = s.draws := rfl
@[simp] theorem setSchedule_reg (s : State) (l : List Event) (r : Reg) : (s.setSchedule l).reg r = s.reg r := rfl

/-! ### setRand -/

@[simp] theorem setRand_v (s : State) (bs : List Byte) (n : Nat) : (s.setRand bs n).v = s.v := rfl
@[simp] theorem setRand_pc (s : State) (bs : List Byte) (n : Nat) : (s.setRand bs n).pc = s.pc := rfl
@[simp] theorem setRand_i (s : State) (bs : List Byte) (n : Nat) : (s.setRand bs n).i = s.i := rfl
@[simp] theorem setRand_run (s : State) (bs : List Byte) (n : Nat) : (s.setRand bs n).run = s.run := rfl
@[simp] theorem setRand_stack (s : State) (bs : List Byte) (n : Nat) : (s.setRand bs n).stack = s.stack := rfl
@[simp] theorem setRand_mem (s : State) (bs : List Byte) (n : Nat) : (s.setRand bs n).mem = s.mem := rfl
@[simp] theorem setRand_dt (s : State) (bs : List Byte) (n : Nat) : (s.setRand bs n).dt = s.dt := rfl
@[simp] theorem setRand_st (s : State) (bs : List Byte) (n : Nat) : (s.setRand bs n).st = s.st := rfl
@[simp] theorem setRand_fb (s : State) (bs : List Byte) (n : Nat) : (s.setRand bs n).fb = s.fb := rfl
@[simp] theorem setRand_keys (s : State) (bs : List Byte) (n : Nat) : (s.setRand bs n).keys = s.keys := rfl
@[simp] theorem setRand_cfg (s : State) (bs : List Byte) (n : Nat) : (s.setRand bs n).cfg = s.cfg := rfl
@[simp] theorem setRand_schedule (s : State) (bs : List Byte) (n : Nat) : (s.setRand bs n).schedule = s.schedule := rfl
@[simp] theorem setRand_rand (s : State) (bs : List Byte) (n : Nat) : (s.setRand bs n).rand = bs := rfl
@[simp] theorem setRand_draws (s : State) (bs : List Byte) (n : Nat) : (s.setRand bs n).draws = n := rfl
@[simp] theorem setRand_reg (s : State) (bs : List Byte) (n : Nat) (r : Reg) : (s.setRand bs n).reg r = s.reg r := rfl

/-! ### Registers after a register update -/

@[simp] theorem setReg_reg_same (s : State) (x : Reg) (b : Byte) : (s.setReg x b).reg x = b := by
  simp [State.reg, State.setReg]

theorem setReg_reg_ne (s : State) (x r : Reg) (b : Byte) (h : r ≠ x) : (s.setReg x b).reg r = s.reg r := by
  have : x.val ≠ r.val := fun e => h (Fin.ext e.symm)
  simp [State.reg, State.setReg, this]

theorem setReg_reg (s : State) (x r : Reg) (b : Byte) : (s.setReg x b).reg r = if r = x then b else s.reg r := by
  by_cases h : r = x
  · simp [h]
  · simp [h, setReg_reg_ne s x r b h]

theorem writeRegs_get (bs : List Byte) (v : Vector Byte 16) (k j : Nat) (h : j < 16) :
    (writeRegs v k bs)[j] = if k ≤ j then bs[j - k]?.getD v[j] else v[j] := by
  induction bs generalizing v k with
  | nil => simp [writeRegs]
  | cons b rest ih =>
    rw [writeRegs, ih, Vector.getElem_setIfInBounds]
    obtain hlt | rfl | hgt := Nat.lt_trichotomy j k
    · simp [show ¬ k + 1 ≤ j by omega, show ¬ k ≤ j by omega, show k ≠ j by omega]
    · simp [show ¬ j + 1 ≤ j by omega]
    · obtain ⟨d, rfl⟩ : ∃ d, j = k + d + 1 := ⟨j - k - 1, by omega⟩
      simp [show k + d + 1 - (k + 1) = d by omega, show k + d + 1 - k = d + 1 by omega,
        show k + 1 ≤ k + d + 1 by omega, show k ≤ k + d + 1 by omega, show k ≠ k + d + 1 by omega]

/-- A register that is loaded holds the list's byte of its number; the others are as they were. -/
theorem setRegs_reg (s : State) (bs : List Byte) (r : Reg) : (s.setRegs bs).reg r = bs[r.val]?.getD (s.reg r) := by
  simp [State.reg, State.setRegs, writeRegs_get]

/-- The flag is written last: VF holds it whatever x is (R25). -/
@[simp] theorem setRegFlag_vf (s : State) (x : Reg) (b : Byte) (c : Bool) : (s.setRegFlag x b c).reg Reg.vf = flagByte c :=
  setReg_reg_same _ _ _

theorem setRegFlag_reg_dest (s : State) (x : Reg) (b : Byte) (c : Bool) (h : x ≠ Reg.vf) : (s.setRegFlag x b c).reg x = b := by
  simp [State.setRegFlag, setReg_reg, h]

theorem setRegFlag_reg_other (s : State) (x r : Reg) (b : Byte) (c : Bool) (h : r ≠ x) (h' : r ≠ Reg.vf) :
    (s.setRegFlag x b c).reg r = s.reg r := by
  simp [State.setRegFlag, setReg_reg, h, h']

/-- Every register of two states equal makes their register files equal. -/
theorem v_ext (s t : State) (h : ∀ r, t.reg r = s.reg r) : t.v = s.v :=
  Vector.ext fun k hk => h ⟨k, hk⟩

/-! ### The composite updates -/

@[simp] theorem setRegFlag_pc (s : State) (x : Reg) (b : Byte) (c : Bool) : (s.setRegFlag x b c).pc = s.pc := rfl
@[simp] theorem setRegFlag_i (s : State) (x : Reg) (b : Byte) (c : Bool) : (s.setRegFlag x b c).i = s.i := rfl
@[simp] theorem setRegFlag_run (s : State) (x : Reg) (b : Byte) (c : Bool) : (s.setRegFlag x b c).run = s.run := rfl
@[simp] theorem setRegFlag_stack (s : State) (x : Reg) (b : Byte) (c : Bool) : (s.setRegFlag x b c).stack = s.stack := rfl
@[simp] theorem setRegFlag_mem (s : State) (x : Reg) (b : Byte) (c : Bool) : (s.setRegFlag x b c).mem = s.mem := rfl
@[simp] theorem setRegFlag_dt (s : State) (x : Reg) (b : Byte) (c : Bool) : (s.setRegFlag x b c).dt = s.dt := rfl
@[simp] theorem setRegFlag_st (s : State) (x : Reg) (b : Byte) (c : Bool) : (s.setRegFlag x b c).st = s.st := rfl
@[simp] theorem setRegFlag_fb (s : State) (x : Reg) (b : Byte) (c : Bool) : (s.setRegFlag x b c).fb = s.fb := rfl
@[simp] theorem setRegFlag_keys (s : State) (x : Reg) (b : Byte) (c : Bool) : (s.setRegFlag x b c).keys = s.keys := rfl
@[simp] theorem setRegFlag_cfg (s : State) (x : Reg) (b : Byte) (c : Bool) : (s.setRegFlag x b c).cfg = s.cfg := rfl
@[simp] theorem setRegFlag_schedule (s : State) (x : Reg) (b : Byte) (c : Bool) : (s.setRegFlag x b c).schedule = s.schedule := rfl
@[simp] theorem setRegFlag_rand (s : State) (x : Reg) (b : Byte) (c : Bool) : (s.setRegFlag x b c).rand = s.rand := rfl
@[simp] theorem setRegFlag_draws (s : State) (x : Reg) (b : Byte) (c : Bool) : (s.setRegFlag x b c).draws = s.draws := rfl

@[simp] theorem skipIf_v (s : State) (c : Bool) : (s.skipIf c).v = s.v := by cases c <;> rfl
@[simp] theorem skipIf_i (s : State) (c : Bool) : (s.skipIf c).i = s.i := by cases c <;> rfl
@[simp] theorem skipIf_run (s : State) (c : Bool) : (s.skipIf c).run = s.run := by cases c <;> rfl
@[simp] theorem skipIf_stack (s : State) (c : Bool) : (s.skipIf c).stack = s.stack := by cases c <;> rfl
@[simp] theorem skipIf_mem (s : State) (c : Bool) : (s.skipIf c).mem = s.mem := by cases c <;> rfl
@[simp] theorem skipIf_dt (s : State) (c : Bool) : (s.skipIf c).dt = s.dt := by cases c <;> rfl
@[simp] theorem skipIf_st (s : State) (c : Bool) : (s.skipIf c).st = s.st := by cases c <;> rfl
@[simp] theorem skipIf_fb (s : State) (c : Bool) : (s.skipIf c).fb = s.fb := by cases c <;> rfl
@[simp] theorem skipIf_keys (s : State) (c : Bool) : (s.skipIf c).keys = s.keys := by cases c <;> rfl
@[simp] theorem skipIf_cfg (s : State) (c : Bool) : (s.skipIf c).cfg = s.cfg := by cases c <;> rfl
@[simp] theorem skipIf_schedule (s : State) (c : Bool) : (s.skipIf c).schedule = s.schedule := by cases c <;> rfl
@[simp] theorem skipIf_rand (s : State) (c : Bool) : (s.skipIf c).rand = s.rand := by cases c <;> rfl
@[simp] theorem skipIf_draws (s : State) (c : Bool) : (s.skipIf c).draws = s.draws := by cases c <;> rfl
@[simp] theorem skipIf_reg (s : State) (c : Bool) (r : Reg) : (s.skipIf c).reg r = s.reg r := by cases c <;> rfl
@[simp] theorem skipIf_true (s : State) : s.skipIf true = s.setPc (s.pc + 2#16) := rfl
@[simp] theorem skipIf_false (s : State) : s.skipIf false = s := rfl
theorem skipIf_pc (s : State) (c : Bool) : (s.skipIf c).pc = if c then s.pc + 2#16 else s.pc := by cases c <;> rfl

@[simp] theorem advanceI_v (s : State) (n : Nat) : (s.advanceI n).v = s.v := by unfold State.advanceI; split <;> rfl
@[simp] theorem advanceI_pc (s : State) (n : Nat) : (s.advanceI n).pc = s.pc := by unfold State.advanceI; split <;> rfl
@[simp] theorem advanceI_run (s : State) (n : Nat) : (s.advanceI n).run = s.run := by unfold State.advanceI; split <;> rfl
@[simp] theorem advanceI_stack (s : State) (n : Nat) : (s.advanceI n).stack = s.stack := by unfold State.advanceI; split <;> rfl
@[simp] theorem advanceI_mem (s : State) (n : Nat) : (s.advanceI n).mem = s.mem := by unfold State.advanceI; split <;> rfl
@[simp] theorem advanceI_dt (s : State) (n : Nat) : (s.advanceI n).dt = s.dt := by unfold State.advanceI; split <;> rfl
@[simp] theorem advanceI_st (s : State) (n : Nat) : (s.advanceI n).st = s.st := by unfold State.advanceI; split <;> rfl
@[simp] theorem advanceI_fb (s : State) (n : Nat) : (s.advanceI n).fb = s.fb := by unfold State.advanceI; split <;> rfl
@[simp] theorem advanceI_keys (s : State) (n : Nat) : (s.advanceI n).keys = s.keys := by unfold State.advanceI; split <;> rfl
@[simp] theorem advanceI_cfg (s : State) (n : Nat) : (s.advanceI n).cfg = s.cfg := by unfold State.advanceI; split <;> rfl
@[simp] theorem advanceI_schedule (s : State) (n : Nat) : (s.advanceI n).schedule = s.schedule := by unfold State.advanceI; split <;> rfl
@[simp] theorem advanceI_rand (s : State) (n : Nat) : (s.advanceI n).rand = s.rand := by unfold State.advanceI; split <;> rfl
@[simp] theorem advanceI_draws (s : State) (n : Nat) : (s.advanceI n).draws = s.draws := by unfold State.advanceI; split <;> rfl
@[simp] theorem advanceI_reg (s : State) (n : Nat) (r : Reg) : (s.advanceI n).reg r = s.reg r := by unfold State.advanceI; split <;> rfl
theorem advanceI_i (s : State) (n : Nat) : (s.advanceI n).i = if s.cfg.lsAdvanceI then s.i + BitVec.ofNat 16 n else s.i := by unfold State.advanceI; split <;> rfl

@[simp] theorem afterDraw_v (s : State) : s.afterDraw.v = s.v := rfl
@[simp] theorem afterDraw_pc (s : State) : s.afterDraw.pc = s.pc := rfl
@[simp] theorem afterDraw_i (s : State) : s.afterDraw.i = s.i := rfl
@[simp] theorem afterDraw_run (s : State) : s.afterDraw.run = s.run := rfl
@[simp] theorem afterDraw_stack (s : State) : s.afterDraw.stack = s.stack := rfl
@[simp] theorem afterDraw_mem (s : State) : s.afterDraw.mem = s.mem := rfl
@[simp] theorem afterDraw_dt (s : State) : s.afterDraw.dt = s.dt := rfl
@[simp] theorem afterDraw_st (s : State) : s.afterDraw.st = s.st := rfl
@[simp] theorem afterDraw_fb (s : State) : s.afterDraw.fb = s.fb := rfl
@[simp] theorem afterDraw_keys (s : State) : s.afterDraw.keys = s.keys := rfl
@[simp] theorem afterDraw_cfg (s : State) : s.afterDraw.cfg = s.cfg := rfl
@[simp] theorem afterDraw_schedule (s : State) : s.afterDraw.schedule = s.schedule := rfl
@[simp] theorem afterDraw_rand (s : State) : s.afterDraw.rand = s.rand.tail := rfl
@[simp] theorem afterDraw_draws (s : State) : s.afterDraw.draws = s.draws + 1 := rfl
@[simp] theorem afterDraw_reg (s : State) (r : Reg) : s.afterDraw.reg r = s.reg r := rfl

/-! ### A fault changes run and PC, and nothing else (R272) -/

@[simp] theorem takeFault_v (e : Raise) (p : Word) (w : Option Word) (s : State) : (takeFault e p w s).v = s.v := rfl
@[simp] theorem takeFault_pc (e : Raise) (p : Word) (w : Option Word) (s : State) : (takeFault e p w s).pc = p := rfl
@[simp] theorem takeFault_i (e : Raise) (p : Word) (w : Option Word) (s : State) : (takeFault e p w s).i = s.i := rfl
@[simp] theorem takeFault_run (e : Raise) (p : Word) (w : Option Word) (s : State) : (takeFault e p w s).run = RunState.faulted ⟨e.kind, p, w, e.addr⟩ := rfl
@[simp] theorem takeFault_stack (e : Raise) (p : Word) (w : Option Word) (s : State) : (takeFault e p w s).stack = s.stack := rfl
@[simp] theorem takeFault_mem (e : Raise) (p : Word) (w : Option Word) (s : State) : (takeFault e p w s).mem = s.mem := rfl
@[simp] theorem takeFault_dt (e : Raise) (p : Word) (w : Option Word) (s : State) : (takeFault e p w s).dt = s.dt := rfl
@[simp] theorem takeFault_st (e : Raise) (p : Word) (w : Option Word) (s : State) : (takeFault e p w s).st = s.st := rfl
@[simp] theorem takeFault_fb (e : Raise) (p : Word) (w : Option Word) (s : State) : (takeFault e p w s).fb = s.fb := rfl
@[simp] theorem takeFault_keys (e : Raise) (p : Word) (w : Option Word) (s : State) : (takeFault e p w s).keys = s.keys := rfl
@[simp] theorem takeFault_cfg (e : Raise) (p : Word) (w : Option Word) (s : State) : (takeFault e p w s).cfg = s.cfg := rfl
@[simp] theorem takeFault_schedule (e : Raise) (p : Word) (w : Option Word) (s : State) : (takeFault e p w s).schedule = s.schedule := rfl
@[simp] theorem takeFault_rand (e : Raise) (p : Word) (w : Option Word) (s : State) : (takeFault e p w s).rand = s.rand := rfl
@[simp] theorem takeFault_draws (e : Raise) (p : Word) (w : Option Word) (s : State) : (takeFault e p w s).draws = s.draws := rfl
@[simp] theorem takeFault_reg (e : Raise) (p : Word) (w : Option Word) (s : State) (r : Reg) : (takeFault e p w s).reg r = s.reg r := rfl

end Sys2Proof.Machine
end

