-- ==== Sys2Proof/Laws/Ops.lean ====
section
/-! SUPPORT. One lemma for each shared operation: all that the call stack, the timers, the keypad,
the random input and the end of an instruction can do. -/

namespace Sys2Proof.Machine

/-! ### The call stack (R66, R67) -/

theorem push_ok (s : State) (v : Word) (h : s.cfg.stackDepth ≠ some s.stack.length) :
    push s v = .ok (s.setStack (s.stack ++ [v])) := if_neg h

theorem push_error (s : State) (v : Word) (h : s.cfg.stackDepth = some s.stack.length) :
    push s v = .error .stackOverflow := if_pos h

theorem pop_ok (s : State) (l : List Word) (v : Word) (h : s.stack = l ++ [v]) : pop s = .ok (v, s.setStack l) := by
  simp [pop, h]

theorem pop_error (s : State) (h : s.stack = []) : pop s = .error .stackUnderflow := by
  simp [pop, h]

/-- Pop() answers the last entry and the rest, or finds the stack empty. -/
theorem pop_cases (s : State) :
    (s.stack = [] ∧ pop s = .error .stackUnderflow) ∨
    ∃ l v, s.stack = l ++ [v] ∧ pop s = .ok (v, s.setStack l) := by
  obtain h | ⟨l, v, h⟩ := List.eq_nil_or_concat' s.stack
  · exact .inl ⟨h, pop_error s h⟩
  · exact .inr ⟨l, v, h, pop_ok s l v h⟩

/-! ### Timers (R281) -/

/-- A tick counts down to 0 and no further. -/
theorem tick_toNat (t : Byte) : (tick t).toNat = t.toNat - 1 := by
  unfold tick
  split
  · simp_all
  · rename_i h
    have : t.toNat ≠ 0 := fun e => h (BitVec.eq_of_toNat_eq e)
    bv_omega

/-! ### Keypad (R42, R43, R47) -/

theorem keyPressed_outside (k : Keypad) (c : Nat) (h : 16 ≤ c) : keyPressed k c = false :=
  BitVec.getLsbD_of_ge k c h

theorem keyPressed_pressKey (k : Keypad) (c d : Nat) (hd : d < 16) :
    keyPressed (pressKey k c) d = (keyPressed k d || decide (d = c)) := by
  unfold keyPressed pressKey
  split
  · simp [hd, eq_comm]
  · simp [show d ≠ c by omega]

theorem keyPressed_releaseKey (k : Keypad) (c d : Nat) (hd : d < 16) :
    keyPressed (releaseKey k c) d = (keyPressed k d && !decide (d = c)) := by
  unfold keyPressed releaseKey
  split
  · simp [hd, eq_comm]
  · simp [show d ≠ c by omega]

/-- LowestKey() is none exactly when no key is pressed. -/
theorem lowestKey_eq_none (k : Keypad) : lowestKey k = none ↔ ∀ c : Reg, keyPressed k c.val = false := by
  simp [lowestKey, List.find?_eq_none]

/-- LowestKey() is the least pressed key. -/
theorem lowestKey_eq_some (k : Keypad) (c : Reg) :
    lowestKey k = some c ↔ keyPressed k c.val = true ∧ ∀ d : Reg, d.val < c.val → keyPressed k d.val = false := by
  unfold lowestKey
  rw [List.find?_eq_some_iff_getElem]
  constructor
  · rintro ⟨hp, i, hi, rfl, hlt⟩
    refine ⟨hp, fun d hd => ?_⟩
    have := hlt d.val (by simpa using hd)
    simpa using this
  · rintro ⟨hp, hlt⟩
    refine ⟨hp, c.val, by simp, by simp, fun j hj => ?_⟩
    simpa using hlt ⟨j, by omega⟩ hj

/-! ### The end of an instruction (R10, R272) -/

/-- An instruction that may raise ends in all of its writes, or in a fault and none of them. -/
theorem commit_cases (i : Instr) (s t : State) (r : Except Raise State) (h : commit i s r = .next t) :
    (∃ u, r = .ok u ∧ t = u) ∨ ∃ e, r = .error e ∧ t = takeFault e (s.pc - 2#16) (some (encode i)) s := by
  cases r with
  | ok u => exact .inl ⟨u, rfl, by simpa [commit] using h.symm⟩
  | error e => exact .inr ⟨e, rfl, by simpa [commit] using h.symm⟩

@[simp] theorem commit_ok (i : Instr) (s t : State) : commit i s (.ok t) = .next t := rfl

@[simp] theorem commit_error (i : Instr) (s : State) (e : Raise) :
    commit i s (.error e) = .next (takeFault e (s.pc - 2#16) (some (encode i)) s) := rfl

/-- In the execute phase PC is pc0 + 2, so what a fault puts back is pc0 (R122, R272). -/
@[simp] theorem pc_restored (p : Word) : p + 2#16 - 2#16 = p := by
  bv_omega

end Sys2Proof.Machine
end

