-- ==== Sys2Proof/Laws/Display.lean ====
section
/-! SUPPORT. Drawing: a sprite's set bits as a list of distinct cells, and the frame buffer and the
collision flag after all of them (R153-R160). -/

namespace Sys2Proof.Machine

/-! ### Cells -/

/-- Every index the core computes lies in the frame buffer (R41). -/
theorem cellIndex_lt (row col : Nat) : cellIndex row col < 2048 := by
  unfold cellIndex dispH dispW
  omega

/-- Two cells are the same only in the same row and column of the screen. -/
theorem cellIndex_inj (r r' c c' : Nat) : cellIndex r c = cellIndex r' c' ↔ r % 32 = r' % 32 ∧ c % 64 = c' % 64 := by
  unfold cellIndex dispH dispW
  omega

theorem pix_toggle (f : Frame) (k j : Nat) (hk : k < 2048) : pix (toggle f k) j = (pix f j ^^ decide (j = k)) := by
  unfold pix toggle
  rw [BitVec.getLsbD_xor, BitVec.getLsbD_twoPow]
  simp [hk, eq_comm]

/-! ### The cells a sprite's set bits land on -/

/-- The cells of one sprite byte's set bits. -/
def rowHits (b : Byte) (row xs : Nat) : List Nat :=
  ((List.range 8).filter (spriteBit b)).map fun c => cellIndex row (xs + c)

/-- The cells of a sprite's set bits. -/
def spriteHits (sprite : List Byte) (xs ys : Nat) : List Nat :=
  match sprite with
  | [] => []
  | b :: rest => rowHits b ys xs ++ spriteHits rest xs (ys + 1)

theorem mem_rowHits (b : Byte) (row xs k : Nat) :
    k ∈ rowHits b row xs ↔ ∃ c, c < 8 ∧ spriteBit b c = true ∧ k = cellIndex row (xs + c) := by
  simp only [rowHits, List.mem_map, List.mem_filter, List.mem_range, and_assoc]
  constructor <;> rintro ⟨c, h1, h2, h3⟩ <;> exact ⟨c, h1, h2, h3.symm⟩

/-- A cell is hit exactly when some set bit of some row lands on it. -/
theorem mem_spriteHits (sprite : List Byte) (xs ys k : Nat) :
    k ∈ spriteHits sprite xs ys ↔
      ∃ r b c, sprite[r]? = some b ∧ c < 8 ∧ spriteBit b c = true ∧ k = cellIndex (ys + r) (xs + c) := by
  induction sprite generalizing ys with
  | nil => simp [spriteHits]
  | cons b rest ih =>
    rw [spriteHits, List.mem_append, mem_rowHits, ih]
    constructor
    · rintro (⟨c, h1, h2, h3⟩ | ⟨r, b', c, h0, h1, h2, h3⟩)
      · exact ⟨0, b, c, rfl, h1, h2, h3⟩
      · exact ⟨r + 1, b', c, by simpa using h0, h1, h2, by rw [h3]; congr 1; omega⟩
    · rintro ⟨r, b', c, h0, h1, h2, h3⟩
      cases r with
      | zero =>
        obtain rfl : b = b' := by simpa using h0
        exact .inl ⟨c, h1, h2, h3⟩
      | succ r => exact .inr ⟨r, b', c, by simpa using h0, h1, h2, by rw [h3]; congr 1; omega⟩

theorem rowHits_nodup (b : Byte) (row xs : Nat) : (rowHits b row xs).Nodup := by
  refine List.Nodup.map_on ?_ (List.nodup_range.filter _)
  intro c hc c' hc' h
  have h1 := List.mem_range.1 (List.mem_filter.1 hc).1
  have h2 := List.mem_range.1 (List.mem_filter.1 hc').1
  have := ((cellIndex_inj _ _ _ _).1 h).2
  omega

/-- Within one sprite of at most 32 rows no cell is hit twice (R160). -/
theorem spriteHits_nodup (sprite : List Byte) (xs ys : Nat) (h : sprite.length ≤ 32) : (spriteHits sprite xs ys).Nodup := by
  induction sprite generalizing ys with
  | nil => exact List.nodup_nil
  | cons b rest ih =>
    simp only [List.length_cons] at h
    refine List.nodup_append'.2 ⟨rowHits_nodup b ys xs, ih (ys + 1) (by omega), ?_⟩
    intro k hk hk'
    obtain ⟨c, _, _, rfl⟩ := (mem_rowHits _ _ _ _).1 hk
    obtain ⟨r, b', c', h0, _, _, he⟩ := (mem_spriteHits _ _ _ _).1 hk'
    have hr : r < rest.length := (List.getElem?_eq_some_iff.1 h0).1
    have := ((cellIndex_inj _ _ _ _).1 he).1
    omega

/-! ### Drawing is toggling those cells, one after the other -/

theorem drawRow_eq_foldl (b : Byte) (row xs : Nat) (d : Drawing) :
    drawRow b row xs d = (rowHits b row xs).foldl (fun d k => plot true k d) d := by
  unfold drawRow rowHits
  rw [List.foldl_map, List.foldl_filter]
  rfl

theorem drawRows_eq_foldl (sprite : List Byte) (xs ys : Nat) (d : Drawing) :
    drawRows sprite xs ys d = (spriteHits sprite xs ys).foldl (fun d k => plot true k d) d := by
  induction sprite generalizing ys d with
  | nil => rfl
  | cons b rest ih => rw [drawRows, ih, spriteHits, List.foldl_append, drawRow_eq_foldl]

/-- The frame buffer and the flag after toggling distinct cells: a cell differs iff it is listed, and
the flag is raised iff a listed cell was on before. -/
theorem foldl_plot (l : List Nat) (d : Drawing) (hl : l.Nodup) (hk : ∀ k ∈ l, k < 2048) :
    (∀ j, pix (l.foldl (fun d k => plot true k d) d).1 j = (pix d.1 j ^^ decide (j ∈ l))) ∧
    (l.foldl (fun d k => plot true k d) d).2 = (d.2 || l.any (pix d.1)) := by
  induction l generalizing d with
  | nil => simp
  | cons k l ih =>
    obtain ⟨hkl, hl⟩ := List.nodup_cons.1 hl
    have hk' : k < 2048 := hk k (by simp)
    obtain ⟨ih1, ih2⟩ := ih (plot true k d) hl fun j hj => hk j (by simp [hj])
    rw [List.foldl_cons]
    refine ⟨fun j => ?_, ?_⟩
    · rw [ih1]
      simp only [plot, if_true, pix_toggle _ _ _ hk', List.mem_cons]
      by_cases hj : j = k
      · subst hj; simp [hkl]
      · simp [hj]
    · rw [ih2]
      have : l.any (pix (toggle d.1 k)) = l.any (pix d.1) := by
        rw [Bool.eq_iff_iff, List.any_eq_true, List.any_eq_true]
        refine exists_congr fun j => and_congr_right fun hj => ?_
        have hjk : j ≠ k := fun e => hkl (e ▸ hj)
        rw [pix_toggle _ _ _ hk']
        simp [hjk]
      simp only [plot, if_true, List.any_cons, Bool.or_assoc, this]

/-- What DXYN leaves: a cell is toggled iff a set sprite bit lands on it, and a collision is a set
sprite bit that lands on a cell that was on (R154-R156). -/
theorem drawRows_spec (sprite : List Byte) (xs ys : Nat) (f : Frame) (h : sprite.length ≤ 32) :
    (∀ j, pix (drawRows sprite xs ys (f, false)).1 j = (pix f j ^^ decide (j ∈ spriteHits sprite xs ys))) ∧
    (drawRows sprite xs ys (f, false)).2 = (spriteHits sprite xs ys).any (pix f) := by
  rw [drawRows_eq_foldl]
  have := foldl_plot (spriteHits sprite xs ys) (f, false) (spriteHits_nodup sprite xs ys h) ?_
  · simpa using this
  · intro k hk
    obtain ⟨r, b, c, -, -, -, rfl⟩ := (mem_spriteHits _ _ _ _).1 hk
    exact cellIndex_lt _ _

end Sys2Proof.Machine
end

