-- ==== Sys2Proof/Laws/Operands.lean ====
section
/-! SUPPORT. The operand forms and the flags as numbers: one lemma each. -/

namespace Sys2Proof.Machine

theorem zextAddr_toNat (nnn : Addr) : (zextAddr nnn).toNat = nnn.toNat := by
  have := nnn.isLt
  simp [zextAddr]
  omega

/-- The sum of BNNN fits in PC without reduction (R141). -/
theorem jumpV0Target_toNat (s : State) (nnn : Addr) : (s.jumpV0Target nnn).toNat = (s.reg 0).toNat + nnn.toNat := by
  have := nnn.isLt
  have := (s.reg 0).isLt
  rw [State.jumpV0Target, BitVec.toNat_add, zextAddr_toNat]
  simp
  omega

theorem skipIf_toNat (s : State) (c : Bool) :
    (s.skipIf c).pc.toNat = if c = true then (s.pc.toNat + 2) % 65536 else s.pc.toNat := by
  rw [skipIf_pc]
  split <;> simp

theorem advanceI_toNat (s : State) (n : Nat) :
    (s.advanceI n).i.toNat = if s.cfg.lsAdvanceI = true then (s.i.toNat + n) % 65536 else s.i.toNat := by
  rw [advanceI_i]
  split
  · simp
  · rfl

theorem fontAddr_toNat (b : Byte) : (fontAddr b).toNat = b.toNat * 5 := by
  have := b.isLt
  simp [fontAddr]
  omega

theorem keyByte_toNat (c : Reg) : (keyByte c).toNat = c.val := by
  have := c.isLt
  simp [keyByte]
  omega

theorem flagByte_decide (c : Prop) [Decidable c] : (flagByte (decide c)).toNat = if c then 1 else 0 := by
  by_cases h : c <;> simp [flagByte, h]

theorem shrFlag_toNat (b : Byte) : (flagByte (shrFlag b)).toNat = b.toNat % 2 := by
  have : shrFlag b = decide (b.toNat % 2 = 1) := by simp [shrFlag, BitVec.getLsbD, Nat.testBit_zero]
  rw [this, flagByte_decide]
  split <;> omega

theorem shlFlag_toNat (b : Byte) : (flagByte (shlFlag b)).toNat = b.toNat / 128 := by
  have hb := b.isLt
  have : shlFlag b = decide (b.toNat / 128 = 1) := by
    simp [shlFlag, BitVec.getLsbD, Nat.testBit_eq_decide_div_mod_eq]
    omega
  rw [this, flagByte_decide]
  split <;> omega

/-- A result and its flag, written in their order, are what the flag rules ask for (R25). -/
theorem setRegFlag_resultAndFlag (s : State) (x : Reg) (b : Byte) (c : Bool) (result flag : Nat)
    (hr : b.toNat = result) (hf : (flagByte c).toNat = flag) : ResultAndFlag x result flag s (s.setRegFlag x b c) := by
  refine ⟨by rw [setRegFlag_vf, hf], fun h => by rw [setRegFlag_reg_dest _ _ _ _ h, hr],
    fun r h1 h2 => setRegFlag_reg_other _ _ _ _ _ h1 h2, by simp [SameBut]⟩

end Sys2Proof.Machine
end

