-- ==== Sys2Proof/Laws/Exec.lean ====
section
/-! SUPPORT. What each instruction that may raise, the fetch, a cycle, an event and a step can do: one
lemma each, to be cited where a proof would otherwise unfold them. -/

namespace Sys2Proof.Machine

/-! ### The instructions that may raise -/

theorem exec_call_ok (nnn : Addr) (s : State) (h : s.cfg.stackDepth ≠ some s.stack.length) :
    exec (.call nnn) s = .next ((s.setStack (s.stack ++ [s.pc])).setPc (zextAddr nnn)) := by
  show execCall nnn s = _
  rw [execCall, push_ok s s.pc h]
  rfl

theorem exec_call_error (nnn : Addr) (s : State) (h : s.cfg.stackDepth = some s.stack.length) :
    exec (.call nnn) s = .next (takeFault .stackOverflow (s.pc - 2#16) (some (encode (.call nnn))) s) := by
  show execCall nnn s = _
  rw [execCall, push_error s s.pc h]
  rfl

theorem exec_ret_ok (s : State) (l : List Word) (a : Word) (h : s.stack = l ++ [a]) :
    exec .ret s = .next ((s.setStack l).setPc a) := by
  show execRet s = _
  rw [execRet, pop_ok s l a h]
  rfl

theorem exec_ret_error (s : State) (h : s.stack = []) :
    exec .ret s = .next (takeFault .stackUnderflow (s.pc - 2#16) (some (encode .ret)) s) := by
  show execRet s = _
  rw [execRet, pop_error s h]
  rfl

/-- The drawing that DXYN makes from the state before it. -/
def State.drawn (s : State) (x y : Reg) (n : Nat) : Drawing :=
  drawRows (s.mem.block (s.dataAddr 0) n) (s.reg x).toNat (s.reg y).toNat (s.fb, false)

theorem exec_drw_ok (x y : Reg) (n : Fin 16) (s : State) (h : n.val = 0 ∨ s.i.toNat + n.val ≤ memSize) :
    exec (.drw x y n) s =
      .next ((s.setFb (s.drawn x y n.val).1).setReg Reg.vf (flagByte (s.drawn x y n.val).2)) := by
  show execDrw x y n s = _
  rw [execDrw, loadBytes_ok s.mem (s.dataAddr 0) n.val (by simpa [State.dataAddr] using h)]
  rfl

theorem exec_drw_error (x y : Reg) (n : Fin 16) (s : State) (hn : 0 < n.val) (h : memSize < s.i.toNat + n.val) :
    exec (.drw x y n) s =
      .next (takeFault (.outOfBounds (max s.i.toNat memSize)) (s.pc - 2#16) (some (encode (.drw x y n))) s) := by
  show execDrw x y n s = _
  rw [execDrw, loadBytes_error s.mem (s.dataAddr 0) n.val hn (by simpa [State.dataAddr] using h)]
  rfl

theorem exec_ldBVx_ok (x : Reg) (s : State) (h : s.i.toNat + 3 ≤ memSize) :
    exec (.ldBVx x) s = .next (s.setMem (s.mem.writeBytes s.i.toNat (bcdDigits (s.reg x)))) := by
  show execLdBVx x s = _
  rw [execLdBVx, storeBytes_ok _ s.mem (s.dataAddr 0) (by simpa [State.dataAddr, bcdDigits] using h)]
  rfl

theorem exec_ldBVx_error (x : Reg) (s : State) (h : memSize < s.i.toNat + 3) :
    exec (.ldBVx x) s =
      .next (takeFault (.outOfBounds (max s.i.toNat memSize)) (s.pc - 2#16) (some (encode (.ldBVx x))) s) := by
  show execLdBVx x s = _
  rw [execLdBVx, storeBytes_error _ s.mem (s.dataAddr 0) (by simp [bcdDigits]) (by simpa [State.dataAddr, bcdDigits] using h)]
  rfl

@[simp] theorem regsUpTo_length (s : State) (x : Reg) : (s.regsUpTo x).length = x.val + 1 := by
  have := x.isLt
  simp [State.regsUpTo]

theorem regsUpTo_get (s : State) (x k : Reg) (h : k.val ≤ x.val) : (s.regsUpTo x)[k.val]? = some (s.reg k) := by
  have := k.isLt
  rw [State.regsUpTo, List.getElem?_take_of_lt (by omega)]
  simp [State.reg]

theorem exec_ldMemVx_ok (x : Reg) (s : State) (h : s.i.toNat + (x.val + 1) ≤ memSize) :
    exec (.ldMemVx x) s =
      .next ((s.setMem (s.mem.writeBytes s.i.toNat (s.regsUpTo x))).advanceI (x.val + 1)) := by
  show execLdMemVx x s = _
  rw [execLdMemVx, storeBytes_ok _ s.mem (s.dataAddr 0) (.inr (by simpa [State.dataAddr] using h))]
  rfl

theorem exec_ldMemVx_error (x : Reg) (s : State) (h : memSize < s.i.toNat + (x.val + 1)) :
    exec (.ldMemVx x) s =
      .next (takeFault (.outOfBounds (max s.i.toNat memSize)) (s.pc - 2#16) (some (encode (.ldMemVx x))) s) := by
  show execLdMemVx x s = _
  have hne : s.regsUpTo x ≠ [] := fun e => by simpa [e] using regsUpTo_length s x
  rw [execLdMemVx, storeBytes_error _ s.mem (s.dataAddr 0) hne (by simpa [State.dataAddr] using h)]
  rfl

theorem exec_ldVxMem_ok (x : Reg) (s : State) (h : s.i.toNat + (x.val + 1) ≤ memSize) :
    exec (.ldVxMem x) s =
      .next ((s.setRegs (s.mem.block s.i.toNat (x.val + 1))).advanceI (x.val + 1)) := by
  show execLdVxMem x s = _
  rw [execLdVxMem, loadBytes_ok s.mem (s.dataAddr 0) (x.val + 1) (.inr (by simpa [State.dataAddr] using h))]
  rfl

theorem exec_ldVxMem_error (x : Reg) (s : State) (h : memSize < s.i.toNat + (x.val + 1)) :
    exec (.ldVxMem x) s =
      .next (takeFault (.outOfBounds (max s.i.toNat memSize)) (s.pc - 2#16) (some (encode (.ldVxMem x))) s) := by
  show execLdVxMem x s = _
  rw [execLdVxMem, loadBytes_error s.mem (s.dataAddr 0) (x.val + 1) (by omega) (by simpa [State.dataAddr] using h)]
  rfl

/-! ### Each of them in one line: its writes, or its fault -/

theorem exec_call_cases (nnn : Addr) (s t : State) (h : exec (.call nnn) s = .next t) :
    (s.cfg.stackDepth ≠ some s.stack.length ∧ t = (s.setStack (s.stack ++ [s.pc])).setPc (zextAddr nnn)) ∨
    (s.cfg.stackDepth = some s.stack.length ∧
      t = takeFault .stackOverflow (s.pc - 2#16) (some (encode (.call nnn))) s) := by
  by_cases hd : s.cfg.stackDepth = some s.stack.length
  · rw [exec_call_error nnn s hd] at h
    exact .inr ⟨hd, (Host.Outcome.next.inj h).symm⟩
  · rw [exec_call_ok nnn s hd] at h
    exact .inl ⟨hd, (Host.Outcome.next.inj h).symm⟩

theorem exec_ret_cases (s t : State) (h : exec .ret s = .next t) :
    (∃ l a, s.stack = l ++ [a] ∧ t = (s.setStack l).setPc a) ∨
    (s.stack = [] ∧ t = takeFault .stackUnderflow (s.pc - 2#16) (some (encode .ret)) s) := by
  obtain ⟨hs, -⟩ | ⟨l, a, hs, -⟩ := pop_cases s
  · rw [exec_ret_error s hs] at h
    exact .inr ⟨hs, (Host.Outcome.next.inj h).symm⟩
  · rw [exec_ret_ok s l a hs] at h
    exact .inl ⟨l, a, hs, (Host.Outcome.next.inj h).symm⟩

theorem exec_drw_cases (x y : Reg) (n : Fin 16) (s t : State) (h : exec (.drw x y n) s = .next t) :
    ((n.val = 0 ∨ s.i.toNat + n.val ≤ memSize) ∧
      t = (s.setFb (s.drawn x y n.val).1).setReg Reg.vf (flagByte (s.drawn x y n.val).2)) ∨
    (0 < n.val ∧ memSize < s.i.toNat + n.val ∧
      t = takeFault (.outOfBounds (max s.i.toNat memSize)) (s.pc - 2#16) (some (encode (.drw x y n))) s) := by
  by_cases hr : n.val = 0 ∨ s.i.toNat + n.val ≤ memSize
  · rw [exec_drw_ok x y n s hr] at h
    exact .inl ⟨hr, (Host.Outcome.next.inj h).symm⟩
  · rw [exec_drw_error x y n s (by omega) (by omega)] at h
    exact .inr ⟨by omega, by omega, (Host.Outcome.next.inj h).symm⟩

theorem exec_ldBVx_cases (x : Reg) (s t : State) (h : exec (.ldBVx x) s = .next t) :
    (s.i.toNat + 3 ≤ memSize ∧ t = s.setMem (s.mem.writeBytes s.i.toNat (bcdDigits (s.reg x)))) ∨
    (memSize < s.i.toNat + 3 ∧
      t = takeFault (.outOfBounds (max s.i.toNat memSize)) (s.pc - 2#16) (some (encode (.ldBVx x))) s) := by
  by_cases hr : s.i.toNat + 3 ≤ memSize
  · rw [exec_ldBVx_ok x s hr] at h
    exact .inl ⟨hr, (Host.Outcome.next.inj h).symm⟩
  · rw [exec_ldBVx_error x s (by omega)] at h
    exact .inr ⟨by omega, (Host.Outcome.next.inj h).symm⟩

theorem exec_ldMemVx_cases (x : Reg) (s t : State) (h : exec (.ldMemVx x) s = .next t) :
    (s.i.toNat + (x.val + 1) ≤ memSize ∧
      t = (s.setMem (s.mem.writeBytes s.i.toNat (s.regsUpTo x))).advanceI (x.val + 1)) ∨
    (memSize < s.i.toNat + (x.val + 1) ∧
      t = takeFault (.outOfBounds (max s.i.toNat memSize)) (s.pc - 2#16) (some (encode (.ldMemVx x))) s) := by
  by_cases hr : s.i.toNat + (x.val + 1) ≤ memSize
  · rw [exec_ldMemVx_ok x s hr] at h
    exact .inl ⟨hr, (Host.Outcome.next.inj h).symm⟩
  · rw [exec_ldMemVx_error x s (by omega)] at h
    exact .inr ⟨by omega, (Host.Outcome.next.inj h).symm⟩

theorem exec_ldVxMem_cases (x : Reg) (s t : State) (h : exec (.ldVxMem x) s = .next t) :
    (s.i.toNat + (x.val + 1) ≤ memSize ∧
      t = (s.setRegs (s.mem.block s.i.toNat (x.val + 1))).advanceI (x.val + 1)) ∨
    (memSize < s.i.toNat + (x.val + 1) ∧
      t = takeFault (.outOfBounds (max s.i.toNat memSize)) (s.pc - 2#16) (some (encode (.ldVxMem x))) s) := by
  by_cases hr : s.i.toNat + (x.val + 1) ≤ memSize
  · rw [exec_ldVxMem_ok x s hr] at h
    exact .inl ⟨hr, (Host.Outcome.next.inj h).symm⟩
  · rw [exec_ldVxMem_error x s (by omega)] at h
    exact .inr ⟨by omega, (Host.Outcome.next.inj h).symm⟩

/-- FX0A takes the least pressed key, or waits. -/
theorem exec_ldVxK_cases (x : Reg) (s t : State) (h : exec (.ldVxK x) s = .next t) :
    (∃ c, lowestKey s.keys = some c ∧ t = s.setReg x (keyByte c)) ∨
    (lowestKey s.keys = none ∧ t = s.setRun (.waitKey x)) := by
  replace h : execLdVxK x s = .next t := h
  unfold execLdVxK at h
  cases hk : lowestKey s.keys with
  | none => rw [hk] at h; exact .inr ⟨rfl, (Host.Outcome.next.inj h).symm⟩
  | some c => rw [hk] at h; exact .inl ⟨c, rfl, (Host.Outcome.next.inj h).symm⟩

/-! ### What DXYN has drawn -/

/-- A cell of the sprite's bits is in terms of the bytes at I. -/
theorem mem_drawnHits (s : State) (x y : Reg) (n k : Nat) :
    k ∈ spriteHits (s.mem.block (s.dataAddr 0) n) (s.reg x).toNat (s.reg y).toNat ↔
      ∃ r c, r < n ∧ c < 8 ∧ (s.mem.read (s.i.toNat + r)).getLsbD (7 - c) = true ∧
        k = ((s.reg y).toNat + r) % 32 * 64 + ((s.reg x).toNat + c) % 64 := by
  rw [mem_spriteHits]
  simp only [Memory.block_get]
  constructor
  · rintro ⟨r, b, c, h0, h1, h2, h3⟩
    split at h0
    · cases h0; exact ⟨r, c, ‹_›, h1, h2, h3⟩
    · cases h0
  · rintro ⟨r, c, h0, h1, h2, h3⟩
    exact ⟨r, _, c, by rw [if_pos h0]; rfl, h1, h2, h3⟩

theorem drawn_pix (s : State) (x y : Reg) (n : Nat) (hn : n < 16) (k : Nat) :
    pix (s.drawn x y n).1 k ≠ pix s.fb k ↔
      ∃ r c, r < n ∧ c < 8 ∧ (s.mem.read (s.i.toNat + r)).getLsbD (7 - c) = true ∧
        k = ((s.reg y).toNat + r) % 32 * 64 + ((s.reg x).toNat + c) % 64 := by
  rw [State.drawn, (drawRows_spec _ _ _ s.fb (by simp; omega)).1 k, ← mem_drawnHits]
  by_cases hm : k ∈ spriteHits (s.mem.block (s.dataAddr 0) n) (s.reg x).toNat (s.reg y).toNat <;> simp [hm]

theorem drawn_flag (s : State) (x y : Reg) (n : Nat) (hn : n < 16) :
    (s.drawn x y n).2 = true ↔
      ∃ r c, r < n ∧ c < 8 ∧ (s.mem.read (s.i.toNat + r)).getLsbD (7 - c) = true ∧
        pix s.fb (((s.reg y).toNat + r) % 32 * 64 + ((s.reg x).toNat + c) % 64) = true := by
  rw [State.drawn, (drawRows_spec _ _ _ s.fb (by simp; omega)).2, List.any_eq_true]
  simp only [mem_drawnHits]
  constructor
  · rintro ⟨_, ⟨r, c, h0, h1, h2, rfl⟩, hp⟩; exact ⟨r, c, h0, h1, h2, hp⟩
  · rintro ⟨r, c, h0, h1, h2, hp⟩; exact ⟨_, ⟨r, c, h0, h1, h2, rfl⟩, hp⟩

/-! ### All instructions -/

/-- An instruction either leaves run as it was, or waits for a key, or takes a fault and nothing else (R10, R272). -/
theorem exec_run (i : Instr) (s t : State) (h : exec i s = .next t) :
    t.run = s.run ∨ (∃ x, t = s.setRun (.waitKey x)) ∨ ∃ e, t = takeFault e (s.pc - 2#16) (some (encode i)) s := by
  cases i
  case ret => obtain ⟨l, a, -, rfl⟩ | ⟨-, rfl⟩ := exec_ret_cases s t h; exacts [.inl rfl, .inr (.inr ⟨_, rfl⟩)]
  case call n => obtain ⟨-, rfl⟩ | ⟨-, rfl⟩ := exec_call_cases n s t h; exacts [.inl rfl, .inr (.inr ⟨_, rfl⟩)]
  case drw x y n => obtain ⟨-, rfl⟩ | ⟨-, -, rfl⟩ := exec_drw_cases x y n s t h; exacts [.inl rfl, .inr (.inr ⟨_, rfl⟩)]
  case ldBVx x => obtain ⟨-, rfl⟩ | ⟨-, rfl⟩ := exec_ldBVx_cases x s t h; exacts [.inl rfl, .inr (.inr ⟨_, rfl⟩)]
  case ldMemVx x =>
    obtain ⟨-, rfl⟩ | ⟨-, rfl⟩ := exec_ldMemVx_cases x s t h
    exacts [.inl (by simp), .inr (.inr ⟨_, rfl⟩)]
  case ldVxMem x =>
    obtain ⟨-, rfl⟩ | ⟨-, rfl⟩ := exec_ldVxMem_cases x s t h
    exacts [.inl (by simp), .inr (.inr ⟨_, rfl⟩)]
  case ldVxK x => obtain ⟨c, -, rfl⟩ | ⟨-, rfl⟩ := exec_ldVxK_cases x s t h; exacts [.inl rfl, .inr (.inl ⟨_, rfl⟩)]
  all_goals (obtain rfl := (Host.Outcome.next.inj h).symm; exact .inl (by simp))

/-! ### Fetch, cycle, step -/

theorem fetch_ok (s : State) (h : s.pc.toNat + 1 < memSize) :
    fetch s = .ok (wordOfBytes (s.mem.read s.pc.toNat) (s.mem.read (s.pc.toNat + 1))) := by
  rw [fetch, memRead_ok s.mem s.pc.toNat (by omega), memRead_ok s.mem (s.pc.toNat + 1) h]
  rfl

/-- A fetch that runs out of memory reports the first of its two bytes that is out of range (R121). -/
theorem fetch_error (s : State) (h : memSize ≤ s.pc.toNat + 1) :
    fetch s = .error (.outOfBounds (max s.pc.toNat memSize)) := by
  rw [fetch]
  by_cases hp : memSize ≤ s.pc.toNat
  · rw [memRead_error s.mem s.pc.toNat hp, Nat.max_eq_left hp]; rfl
  · rw [memRead_ok s.mem s.pc.toNat (by omega), memRead_error s.mem (s.pc.toNat + 1) h,
      show max s.pc.toNat memSize = s.pc.toNat + 1 by omega]
    rfl

/-- A cycle in RUNNING faults in the fetch, faults in the decoder, or executes the instruction at PC. -/
theorem runCycle_cases (s : State) :
    (memSize ≤ s.pc.toNat + 1 ∧
      runCycle s = .next (takeFault (.outOfBounds (max s.pc.toNat memSize)) s.pc none s)) ∨
    (s.pc.toNat + 1 < memSize ∧ ∃ w, fetch s = .ok w ∧
      ((∃ e, decode w = .error e ∧ runCycle s = .next (takeFault .decodeError s.pc (some w) s)) ∨
       ∃ i, decode w = .ok i ∧ runCycle s = exec i (s.setPc (s.pc + 2#16)))) := by
  by_cases h : memSize ≤ s.pc.toNat + 1
  · exact .inl ⟨h, by rw [runCycle, fetch_error s h]⟩
  · refine .inr ⟨by omega, _, fetch_ok s (by omega), ?_⟩
    rw [runCycle, fetch_ok s (by omega)]
    cases hd : decode (wordOfBytes (s.mem.read s.pc.toNat) (s.mem.read (s.pc.toNat + 1))) with
    | error e => exact .inl ⟨e, rfl, by simp only [hd]⟩
    | ok i => exact .inr ⟨i, rfl, by simp only [hd]⟩

theorem executeCycle_running (s : State) (h : s.run = .running) : executeCycle s = runCycle s := by
  rw [executeCycle, h]

theorem executeCycle_waitKey (s : State) (x : Reg) (h : s.run = .waitKey x) : executeCycle s = .next (resumeWait x s) := by
  rw [executeCycle, h]

theorem executeCycle_faulted (s : State) (info : FaultInfo) (h : s.run = .faulted info) : executeCycle s = .next s := by
  rw [executeCycle, h]

/-- A cycle that waits leaves the state as it is, or takes the least pressed key and runs again. -/
theorem resumeWait_cases (x : Reg) (s : State) :
    (lowestKey s.keys = none ∧ resumeWait x s = s) ∨
    ∃ c, lowestKey s.keys = some c ∧ resumeWait x s = (s.setReg x (keyByte c)).setRun .running := by
  unfold resumeWait
  cases h : lowestKey s.keys with
  | none => exact .inl ⟨rfl, rfl⟩
  | some c => exact .inr ⟨c, rfl, rfl⟩

theorem step_idle (s : State) (h : s.schedule = []) : step s = executeCycle s := by
  rw [step, h]

theorem step_scheduled (s : State) (e : Event) (rest : List Event) (h : s.schedule = e :: rest) :
    step s = deliver e (s.setSchedule rest) := by
  rw [step, h]

end Sys2Proof.Machine
end

