-- ==== Sys2Proof/Laws/Events.lean ====
section
/-! SUPPORT. What reset leaves in memory, and what the events of the other agents can do. -/

namespace Sys2Proof.Machine

/-! ### Reset (R310) -/

theorem fontImage_length (c : Config) (h : c.wf = true) : (c.fontImage.getD []).length ≤ romBase := by
  revert h
  unfold Config.wf
  cases c.fontImage <;> simp

theorem fontMem_wf (c : Config) (h : c.wf = true) : (Memory.writeBytes [] 0 (c.fontImage.getD [])).wf = true := by
  have := fontImage_length c h
  refine Memory.writeBytes_wf _ _ _ rfl ?_
  simp only [romBase, memSize] at *
  omega

/-- Memory after reset is in its canonical form. -/
theorem resetMem_wf (c : Config) (rom : List Byte) (hc : c.wf = true) (hr : rom.length ≤ romMax) :
    (resetMem c rom).wf = true := by
  refine Memory.writeBytes_wf _ _ _ (fontMem_wf c hc) ?_
  simp only [romBase, romMax, memSize] at *
  omega

/-- Memory after reset: the ROM from 0x200 on, the font image from 0 on, and zeros (R51). -/
theorem resetMem_read (c : Config) (rom : List Byte) (a : Nat) (hc : c.wf = true) (hr : rom.length ≤ romMax) :
    (resetMem c rom).read a =
      if romBase ≤ a then rom[a - romBase]?.getD 0x00#8 else (c.fontImage.getD [])[a]?.getD 0x00#8 := by
  have hf := fontImage_length c hc
  have hwf := fontMem_wf c hc
  rw [resetMem, Memory.read_writeBytes _ _ _ _ hwf (by simp only [romBase, romMax, memSize] at *; omega),
    Memory.read_writeBytes _ _ _ _ rfl (by simp only [romBase, memSize] at *; omega), if_pos (Nat.zero_le a)]
  split
  · have : (c.fontImage.getD [])[a - 0]? = none := List.getElem?_eq_none (by omega)
    rw [this]; rfl
  · rfl

theorem resetRom_ok (rom : List Byte) (s : State) (h : rom.length ≤ romMax) :
    resetRom rom s = some { State.reset with
      mem := resetMem s.cfg rom, cfg := s.cfg, schedule := s.schedule, rand := s.rand, draws := s.draws } := if_pos h

theorem resetRom_refused (rom : List Byte) (s : State) (h : ¬ rom.length ≤ romMax) : resetRom rom s = none := if_neg h

/-! ### Events -/

/-- An event other than a strobe and a reset writes DT, ST, K or the random input, and nothing else. -/
theorem deliver_cases (e : Event) (s t : State) (h : deliver e s = .next t) :
    (e = .cycle ∧ executeCycle s = .next t) ∨
    (e = .tickDt ∧ t = s.setDt (tick s.dt)) ∨
    (e = .tickSt ∧ t = s.setSt (tick s.st)) ∨
    (∃ c, e = .keyEnable c ∧ t = s.setKeys (pressKey s.keys c)) ∨
    (∃ c, e = .keyDisable c ∧ t = s.setKeys (releaseKey s.keys c)) ∨
    (e = .stClear ∧ t = s.setSt 0x00#8) ∨
    (∃ b, e = .rand b ∧ t = s.setRand (s.rand ++ [b]) s.draws) ∨
    ∃ rom, e = .reset rom ∧ t = (resetRom rom s).getD s := by
  cases e with
  | cycle => exact .inl ⟨rfl, h⟩
  | tickDt => exact .inr (.inl ⟨rfl, (Host.Outcome.next.inj h).symm⟩)
  | tickSt => exact .inr (.inr (.inl ⟨rfl, (Host.Outcome.next.inj h).symm⟩))
  | keyEnable c => exact .inr (.inr (.inr (.inl ⟨c, rfl, (Host.Outcome.next.inj h).symm⟩)))
  | keyDisable c => exact .inr (.inr (.inr (.inr (.inl ⟨c, rfl, (Host.Outcome.next.inj h).symm⟩))))
  | stClear => exact .inr (.inr (.inr (.inr (.inr (.inl ⟨rfl, (Host.Outcome.next.inj h).symm⟩)))))
  | rand b => exact .inr (.inr (.inr (.inr (.inr (.inr (.inl ⟨b, rfl, (Host.Outcome.next.inj h).symm⟩))))))
  | reset rom => exact .inr (.inr (.inr (.inr (.inr (.inr (.inr ⟨rom, rfl, (Host.Outcome.next.inj h).symm⟩))))))

end Sys2Proof.Machine
end

