-- ==== Sys2Proof/Laws/PerInstr.lean ====
section
/-! SUPPORT. Statements made per instruction: the round trip of each instruction's encoding. -/

namespace Sys2Proof.Laws.RoundTrip

/-- Decoding the word of a well-formed instruction gives it back, with every operand (R92, R94). -/
def Statement (i : Instr) : Prop := i.wf = true → decode (encode i) = .ok i

theorem sys (nnn : Addr) : Statement (.sys nnn) :=
  fun h => decode_formatA_zero nnn h

theorem cls : Statement .cls :=
  fun _ => by decide

theorem ret : Statement .ret :=
  fun _ => by decide

theorem jp (nnn : Addr) : Statement (.jp nnn) :=
  fun _ => by simp [encode, decode]

theorem call (nnn : Addr) : Statement (.call nnn) :=
  fun _ => by simp [encode, decode]

theorem seByte (x : Reg) (nn : Byte) : Statement (.seByte x nn) :=
  fun _ => by simp [encode, decode]

theorem sneByte (x : Reg) (nn : Byte) : Statement (.sneByte x nn) :=
  fun _ => by simp [encode, decode]

theorem seReg (x : Reg) (y : Reg) : Statement (.seReg x y) :=
  fun _ => by simp [encode, decode]

theorem ldByte (x : Reg) (nn : Byte) : Statement (.ldByte x nn) :=
  fun _ => by simp [encode, decode]

theorem addByte (x : Reg) (nn : Byte) : Statement (.addByte x nn) :=
  fun _ => by simp [encode, decode]

theorem ldReg (x : Reg) (y : Reg) : Statement (.ldReg x y) :=
  fun _ => by simp [encode, decode, decodeAlu]

theorem orReg (x : Reg) (y : Reg) : Statement (.orReg x y) :=
  fun _ => by simp [encode, decode, decodeAlu]

theorem andReg (x : Reg) (y : Reg) : Statement (.andReg x y) :=
  fun _ => by simp [encode, decode, decodeAlu]

theorem xorReg (x : Reg) (y : Reg) : Statement (.xorReg x y) :=
  fun _ => by simp [encode, decode, decodeAlu]

theorem addReg (x : Reg) (y : Reg) : Statement (.addReg x y) :=
  fun _ => by simp [encode, decode, decodeAlu]

theorem subReg (x : Reg) (y : Reg) : Statement (.subReg x y) :=
  fun _ => by simp [encode, decode, decodeAlu]

theorem shr (x : Reg) (y : Reg) : Statement (.shr x y) :=
  fun _ => by simp [encode, decode, decodeAlu]

theorem subn (x : Reg) (y : Reg) : Statement (.subn x y) :=
  fun _ => by simp [encode, decode, decodeAlu]

theorem shl (x : Reg) (y : Reg) : Statement (.shl x y) :=
  fun _ => by simp [encode, decode, decodeAlu]

theorem sneReg (x : Reg) (y : Reg) : Statement (.sneReg x y) :=
  fun _ => by simp [encode, decode]

theorem ldI (nnn : Addr) : Statement (.ldI nnn) :=
  fun _ => by simp [encode, decode]

theorem jpV0 (nnn : Addr) : Statement (.jpV0 nnn) :=
  fun _ => by simp [encode, decode]

theorem rnd (x : Reg) (nn : Byte) : Statement (.rnd x nn) :=
  fun _ => by simp [encode, decode]

theorem drw (x : Reg) (y : Reg) (n : Fin 16) : Statement (.drw x y n) :=
  fun _ => by simp [encode, decode]

theorem skp (x : Reg) : Statement (.skp x) :=
  fun _ => by simp [encode, decode, decodeKey]

theorem sknp (x : Reg) : Statement (.sknp x) :=
  fun _ => by simp [encode, decode, decodeKey]

theorem ldVxDt (x : Reg) : Statement (.ldVxDt x) :=
  fun _ => by simp [encode, decode, decodeMisc]

theorem ldVxK (x : Reg) : Statement (.ldVxK x) :=
  fun _ => by simp [encode, decode, decodeMisc]

theorem ldDtVx (x : Reg) : Statement (.ldDtVx x) :=
  fun _ => by simp [encode, decode, decodeMisc]

theorem ldStVx (x : Reg) : Statement (.ldStVx x) :=
  fun _ => by simp [encode, decode, decodeMisc]

theorem addIVx (x : Reg) : Statement (.addIVx x) :=
  fun _ => by simp [encode, decode, decodeMisc]

theorem ldFVx (x : Reg) : Statement (.ldFVx x) :=
  fun _ => by simp [encode, decode, decodeMisc]

theorem ldBVx (x : Reg) : Statement (.ldBVx x) :=
  fun _ => by simp [encode, decode, decodeMisc]

theorem ldMemVx (x : Reg) : Statement (.ldMemVx x) :=
  fun _ => by simp [encode, decode, decodeMisc]

theorem ldVxMem (x : Reg) : Statement (.ldVxMem x) :=
  fun _ => by simp [encode, decode, decodeMisc]

end Sys2Proof.Laws.RoundTrip
end

