-- ==== Sys2Proof/Laws/Runs.lean ====
section
/-! SUPPORT. Many steps: that no step stops, that the schedule is no input of an instruction or an event, and what
one step adds to a run, to an observation and to a timer. -/

namespace Sys2Proof.Machine

/-! ### No step stops (R272, R280) -/

theorem exec_next (i : Instr) (s : State) : ∃ t, exec i s = .next t := by
  cases i
  case ret =>
    obtain ⟨h, -⟩ | ⟨l, a, h, -⟩ := pop_cases s
    exacts [⟨_, exec_ret_error s h⟩, ⟨_, exec_ret_ok s l a h⟩]
  case call n =>
    by_cases h : s.cfg.stackDepth = some s.stack.length
    exacts [⟨_, exec_call_error n s h⟩, ⟨_, exec_call_ok n s h⟩]
  case drw x y n =>
    by_cases h : n.val = 0 ∨ s.i.toNat + n.val ≤ memSize
    exacts [⟨_, exec_drw_ok x y n s h⟩, ⟨_, exec_drw_error x y n s (by omega) (by omega)⟩]
  case ldBVx x =>
    by_cases h : s.i.toNat + 3 ≤ memSize
    exacts [⟨_, exec_ldBVx_ok x s h⟩, ⟨_, exec_ldBVx_error x s (by omega)⟩]
  case ldMemVx x =>
    by_cases h : s.i.toNat + (x.val + 1) ≤ memSize
    exacts [⟨_, exec_ldMemVx_ok x s h⟩, ⟨_, exec_ldMemVx_error x s (by omega)⟩]
  case ldVxMem x =>
    by_cases h : s.i.toNat + (x.val + 1) ≤ memSize
    exacts [⟨_, exec_ldVxMem_ok x s h⟩, ⟨_, exec_ldVxMem_error x s (by omega)⟩]
  case ldVxK x => simp only [exec, execLdVxK]; split <;> exact ⟨_, rfl⟩
  all_goals exact ⟨_, rfl⟩

theorem executeCycle_next (s : State) : ∃ t, executeCycle s = .next t := by
  cases h : s.run with
  | faulted info => exact ⟨_, executeCycle_faulted s info h⟩
  | waitKey x => exact ⟨_, executeCycle_waitKey s x h⟩
  | running =>
    rw [executeCycle_running s h]
    obtain ⟨-, h⟩ | ⟨-, w, -, ⟨e, -, h⟩ | ⟨i, -, h⟩⟩ := runCycle_cases s
    exacts [⟨_, h⟩, ⟨_, h⟩, h ▸ exec_next i _]

theorem deliver_next (e : Event) (s : State) : ∃ t, deliver e s = .next t := by
  cases e
  case cycle => exact executeCycle_next s
  all_goals exact ⟨_, rfl⟩

/-! ### What is scheduled later does not matter to what is done now -/

theorem skipIf_setSchedule (s : State) (l : List Event) (c : Bool) :
    (s.setSchedule l).skipIf c = (s.skipIf c).setSchedule l := by cases c <;> rfl

theorem advanceI_setSchedule (s : State) (l : List Event) (n : Nat) :
    (s.setSchedule l).advanceI n = (s.advanceI n).setSchedule l := by
  unfold State.advanceI
  rw [setSchedule_cfg]
  cases s.cfg.lsAdvanceI <;> rfl

theorem exec_setSchedule (i : Instr) (s t : State) (l : List Event) (h : exec i s = .next t) :
    exec i (s.setSchedule l) = .next (t.setSchedule l) := by
  cases i
  case ret =>
    obtain ⟨k, a, h0, rfl⟩ | ⟨h0, rfl⟩ := exec_ret_cases s t h
    exacts [exec_ret_ok (s.setSchedule l) _ _ h0, exec_ret_error (s.setSchedule l) h0]
  case call n =>
    obtain ⟨h0, rfl⟩ | ⟨h0, rfl⟩ := exec_call_cases n s t h
    exacts [exec_call_ok n (s.setSchedule l) h0, exec_call_error n (s.setSchedule l) h0]
  case drw x y n =>
    obtain ⟨h0, rfl⟩ | ⟨hn, h0, rfl⟩ := exec_drw_cases x y n s t h
    exacts [exec_drw_ok x y n (s.setSchedule l) h0, exec_drw_error x y n (s.setSchedule l) hn h0]
  case ldBVx x =>
    obtain ⟨h0, rfl⟩ | ⟨h0, rfl⟩ := exec_ldBVx_cases x s t h
    exacts [exec_ldBVx_ok x (s.setSchedule l) h0, exec_ldBVx_error x (s.setSchedule l) h0]
  case ldMemVx x =>
    obtain ⟨h0, rfl⟩ | ⟨h0, rfl⟩ := exec_ldMemVx_cases x s t h
    · rw [exec_ldMemVx_ok x (s.setSchedule l) h0, ← advanceI_setSchedule]; rfl
    · exact exec_ldMemVx_error x (s.setSchedule l) h0
  case ldVxMem x =>
    obtain ⟨h0, rfl⟩ | ⟨h0, rfl⟩ := exec_ldVxMem_cases x s t h
    · rw [exec_ldVxMem_ok x (s.setSchedule l) h0, ← advanceI_setSchedule]; rfl
    · exact exec_ldVxMem_error x (s.setSchedule l) h0
  case ldVxK x =>
    obtain ⟨c, h0, rfl⟩ | ⟨h0, rfl⟩ := exec_ldVxK_cases x s t h
    all_goals (show execLdVxK x _ = _; rw [execLdVxK, setSchedule_keys, h0]; rfl)
  all_goals (obtain rfl := (Host.Outcome.next.inj h).symm)
  case seByte => exact congrArg Host.Outcome.next (skipIf_setSchedule s l _)
  case sneByte => exact congrArg Host.Outcome.next (skipIf_setSchedule s l _)
  case seReg => exact congrArg Host.Outcome.next (skipIf_setSchedule s l _)
  case sneReg => exact congrArg Host.Outcome.next (skipIf_setSchedule s l _)
  case skp => exact congrArg Host.Outcome.next (skipIf_setSchedule s l _)
  case sknp => exact congrArg Host.Outcome.next (skipIf_setSchedule s l _)
  all_goals rfl

theorem executeCycle_setSchedule (s t : State) (l : List Event) (h : executeCycle s = .next t) :
    executeCycle (s.setSchedule l) = .next (t.setSchedule l) := by
  cases hr : s.run with
  | faulted info =>
    rw [executeCycle_faulted s info hr] at h
    obtain rfl := Host.Outcome.next.inj h
    exact executeCycle_faulted (s.setSchedule l) info hr
  | waitKey x =>
    rw [executeCycle_waitKey s x hr] at h
    obtain rfl := Host.Outcome.next.inj h
    rw [executeCycle_waitKey (s.setSchedule l) x hr]
    unfold resumeWait
    simp only [setSchedule_keys]
    cases lowestKey s.keys <;> rfl
  | running =>
    rw [executeCycle_running s hr] at h
    rw [executeCycle_running (s.setSchedule l) hr]
    have hf : fetch (s.setSchedule l) = fetch s := rfl
    obtain ⟨h0, h'⟩ | ⟨h0, w, hw, ⟨e, hd, h'⟩ | ⟨i, hd, h'⟩⟩ := runCycle_cases s <;> rw [h'] at h
    · obtain rfl := Host.Outcome.next.inj h
      rw [runCycle, hf, fetch_error s h0]; rfl
    · obtain rfl := Host.Outcome.next.inj h
      rw [runCycle, hf, hw]; simp only [hd]; rfl
    · rw [runCycle, hf, hw]; simp only [hd]
      exact exec_setSchedule i _ t l h

/-- An event does the same to the core whatever is scheduled after it, and leaves that scheduled. -/
theorem deliver_setSchedule (e : Event) (s t : State) (l : List Event) (h : deliver e s = .next t) :
    deliver e (s.setSchedule l) = .next (t.setSchedule l) := by
  cases e
  case cycle => exact executeCycle_setSchedule s t l h
  case reset rom =>
    obtain rfl := Host.Outcome.next.inj h
    show Host.Outcome.next _ = _
    by_cases hl : rom.length ≤ romMax
    · rw [resetRom_ok _ _ hl, resetRom_ok _ _ hl]; rfl
    · rw [resetRom_refused _ _ hl, resetRom_refused _ _ hl]; rfl
  all_goals (obtain rfl := Host.Outcome.next.inj h; rfl)

/-! ### Runs -/

theorem steps_succ (n : Nat) (s t : State) (h : step s = .next t) : steps (n + 1) s = steps n t := by
  rw [steps, h]

theorem step_setSchedule_cons (s : State) (e : Event) (l : List Event) :
    step (s.setSchedule (e :: l)) = deliver e (s.setSchedule l) := step_scheduled _ e l rfl

/-- One step of an execution delivers its event to the state before it. -/
theorem Execution.Follows.deliver {x : Execution} (h : x.Follows) (n : Nat) :
    Machine.deliver (x.event n) ((x.state n).setSchedule []) = .next (x.state (n + 1)) :=
  step_setSchedule_cons (x.state n) (x.event n) [] ▸ h n

theorem observed_of_end (n : Nat) (s : State) (h : endOfRun s = true) : observed n s = some s := by
  cases n <;> rw [observed, if_pos h]

theorem observed_zero (s : State) (h : endOfRun s = false) : observed 0 s = none := by simp [observed, h]

theorem observed_succ (n : Nat) (s t : State) (h : endOfRun s = false) (ht : step s = .next t) :
    observed (n + 1) s = observed n t := by
  rw [observed, if_neg (by simp [h]), ht]

end Sys2Proof.Machine
end

