-- ==== Sys2Proof/Tests/Slice0.lean ====
section
/-! SUPPORT. Tests on fixed values. Expected results are from spec/: the encodings of R96, and the
vectors of 95_test_vectors.md (TF, TA, TD, TM, TK, TX), each named in its theorem's comment. After
them, for every obligation with hypotheses, states and operands that meet all of them together. -/

namespace Sys2Proof.Machine.Tests

open Sys2Proof Sys2Proof.Machine

/-! ### Helpers -/

/-- The state after one cycle that fetches the word w at PC. -/
def after (w : Nat) (s : State) : State :=
  match step (s.withFetchWord 16 w) with
  | .next t => t
  | .fault _ => s
  | .refused _ => s

/-- The reset state with some registers set. -/
def regs (l : List (Reg × Byte)) : State := l.foldl (fun s p => s.setReg p.1 p.2) State.reset

/-- s with I and bytes of memory at I. -/
def at_ (i : Word) (bs : List Byte) (s : State) : State :=
  { s with i := i, mem := s.mem.writeBytes i.toNat bs }

/-- s in the configuration IN_PLACE. -/
def inPlace (s : State) : State := { s with cfg := { s.cfg with shiftQuirk := .inPlace } }

/-- s in the configuration LS_ADVANCE_I = false. -/
def noAdvance (s : State) : State := { s with cfg := { s.cfg with lsAdvanceI := false } }

/-- s with STACK_DEPTH = some d. -/
def bounded (d : Nat) (s : State) : State := { s with cfg := { s.cfg with stackDepth := some d } }

/-- V0..VF = 0x10..0x1F. -/
def counting : State := { State.reset with v := Vector.ofFn fun k => BitVec.ofNat 8 (0x10 + k.val) }

/-- A faulted state: TF4's fault. -/
def underflowInfo : FaultInfo := { kind := .stackUnderflow, pc := 0x200#16, opcode := some 0x00EE#16, addr := none }

/-- The reset state, faulted. -/
def faultedState : State := { State.reset with run := .faulted underflowInfo }

/-! ### WellFormed refuses -/

theorem test_wf_sys_is_not_cls : (Instr.sys 0x0E0).wf = false := by decide
theorem test_wf_sys_is_not_ret : (Instr.sys 0x0EE).wf = false := by decide
theorem test_wf_sys : (Instr.sys 0x0E1).wf = true := by decide
theorem test_cfg_wf_refuses_depth_zero : { Config.hardware with stackDepth := some 0 }.wf = false := by decide
theorem test_cfg_wf_refuses_long_font :
    { Config.hardware with fontImage := some (List.replicate 0x201 1#8) }.wf = false := by decide +kernel
theorem test_cfg_wf_hardware : Config.hardware.wf = true := by decide
theorem test_mem_wf_refuses_unsorted : Memory.wf [(5, 1#8), (4, 1#8)] = false := by decide
theorem test_mem_wf_refuses_repeat : Memory.wf [(4, 1#8), (4, 2#8)] = false := by decide
theorem test_mem_wf_refuses_zero : Memory.wf [(4, 0#8)] = false := by decide
theorem test_mem_wf_refuses_outside : Memory.wf [(0x1000, 1#8)] = false := by decide
theorem test_mem_wf : Memory.wf [(4, 1#8), (0xFFF, 2#8)] = true := by decide
theorem test_mem_write_of_zero_unlists : Memory.write [(4, 1#8), (7, 2#8)] 4 0#8 = [(7, 2#8)] := by decide

/-! ### Decoding: a word of every row of R96, written out from its pattern -/

theorem test_decode_sys : decode 0x0123#16 = .ok (.sys 0x123) := by rfl
theorem test_decode_cls : decode 0x00E0#16 = .ok .cls := by rfl
theorem test_decode_ret : decode 0x00EE#16 = .ok .ret := by rfl
theorem test_decode_jp : decode 0x1ABC#16 = .ok (.jp 0xABC) := by rfl
theorem test_decode_call : decode 0x2ABC#16 = .ok (.call 0xABC) := by rfl
theorem test_decode_seByte : decode 0x3A42#16 = .ok (.seByte 0xA 0x42) := by rfl
theorem test_decode_sneByte : decode 0x4B10#16 = .ok (.sneByte 0xB 0x10) := by rfl
theorem test_decode_seReg : decode 0x5120#16 = .ok (.seReg 1 2) := by rfl
theorem test_decode_ldByte : decode 0x6A42#16 = .ok (.ldByte 0xA 0x42) := by rfl
theorem test_decode_addByte : decode 0x71F0#16 = .ok (.addByte 1 0xF0) := by rfl
theorem test_decode_ldReg : decode 0x8120#16 = .ok (.ldReg 1 2) := by rfl
theorem test_decode_orReg : decode 0x8121#16 = .ok (.orReg 1 2) := by rfl
theorem test_decode_andReg : decode 0x8122#16 = .ok (.andReg 1 2) := by rfl
theorem test_decode_xorReg : decode 0x8123#16 = .ok (.xorReg 1 2) := by rfl
theorem test_decode_addReg : decode 0x8124#16 = .ok (.addReg 1 2) := by rfl
theorem test_decode_subReg : decode 0x8125#16 = .ok (.subReg 1 2) := by rfl
theorem test_decode_shr : decode 0x8126#16 = .ok (.shr 1 2) := by rfl
theorem test_decode_subn : decode 0x8127#16 = .ok (.subn 1 2) := by rfl
theorem test_decode_shl : decode 0x812E#16 = .ok (.shl 1 2) := by rfl
theorem test_decode_sneReg : decode 0x9120#16 = .ok (.sneReg 1 2) := by rfl
theorem test_decode_ldI : decode 0xA2F0#16 = .ok (.ldI 0x2F0) := by rfl
theorem test_decode_jpV0 : decode 0xB300#16 = .ok (.jpV0 0x300) := by rfl
theorem test_decode_rnd : decode 0xC30F#16 = .ok (.rnd 3 0x0F) := by rfl
theorem test_decode_drw : decode 0xD12F#16 = .ok (.drw 1 2 15) := by rfl
theorem test_decode_skp : decode 0xE59E#16 = .ok (.skp 5) := by rfl
theorem test_decode_sknp : decode 0xE5A1#16 = .ok (.sknp 5) := by rfl
theorem test_decode_ldVxDt : decode 0xF307#16 = .ok (.ldVxDt 3) := by rfl
theorem test_decode_ldVxK : decode 0xF20A#16 = .ok (.ldVxK 2) := by rfl
theorem test_decode_ldDtVx : decode 0xF115#16 = .ok (.ldDtVx 1) := by rfl
theorem test_decode_ldStVx : decode 0xF118#16 = .ok (.ldStVx 1) := by rfl
theorem test_decode_addIVx : decode 0xF11E#16 = .ok (.addIVx 1) := by rfl
theorem test_decode_ldFVx : decode 0xF129#16 = .ok (.ldFVx 1) := by rfl
theorem test_decode_ldBVx : decode 0xF133#16 = .ok (.ldBVx 1) := by rfl
theorem test_decode_ldMemVx : decode 0xFF55#16 = .ok (.ldMemVx 15) := by rfl
theorem test_decode_ldVxMem : decode 0xF165#16 = .ok (.ldVxMem 1) := by rfl
theorem test_decode_table_word_is_big_endian : decodeTableWord 16 0x6A42 = some (.ldByte 0xA 0x42) := by decide
theorem test_decode_illegal_words :
    [0x5121, 0x8008, 0x800D, 0x800F, 0x912F, 0xE09F, 0xE0A0, 0xF000, 0xF064].all
      (fun w => decodeTableWord 16 w == none) = true := by decide

/-! ### Control transfer (TF) -/

/-- TF1. -/
theorem test_sys : after 0x0123 State.reset =
    { State.reset with pc := 0x202#16, mem := [(0x200, 0x01#8), (0x201, 0x23#8)] } := by decide +kernel
/-- TF3. -/
theorem test_ret : (after 0x00EE { State.reset with stack := [0x020A#16] }).pc = 0x20A#16 ∧
    (after 0x00EE { State.reset with stack := [0x020A#16] }).stack = [] := by decide
/-- TF4. -/
theorem test_ret_underflow : (after 0x00EE State.reset).run = .faulted underflowInfo ∧
    (after 0x00EE State.reset).pc = 0x200#16 := by decide
/-- TF5, first cycle. -/
theorem test_jp : (after 0x1FFF State.reset).pc = 0xFFF#16 := by decide
/-- TF6, first cycle. -/
theorem test_call : (after 0x2300 { State.reset with pc := 0xFFE#16 }).stack = [0x1000#16] ∧
    (after 0x2300 { State.reset with pc := 0xFFE#16 }).pc = 0x300#16 := by decide
/-- TF7, third cycle. -/
theorem test_call_overflow :
    (after 0x2202 (bounded 2 { State.reset with pc := 0x202#16, stack := [0x202#16, 0x204#16] })).run =
      .faulted { kind := .stackOverflow, pc := 0x202#16, opcode := some 0x2202#16, addr := none } := by decide
/-- TF9, TF10. -/
theorem test_se_byte : (after 0x3310 (regs [(3, 0x10#8)])).pc = 0x204#16 ∧
    (after 0x3310 (regs [(3, 0x11#8)])).pc = 0x202#16 := by decide
/-- TF11, TF12. -/
theorem test_sne_byte : (after 0x4000 State.reset).pc = 0x202#16 ∧ (after 0x4001 State.reset).pc = 0x204#16 := by decide
/-- TF13, and its complement. -/
theorem test_se_reg : (after 0x5120 (regs [(1, 7#8), (2, 7#8)])).pc = 0x204#16 ∧
    (after 0x5120 (regs [(1, 7#8), (2, 8#8)])).pc = 0x202#16 := by decide
/-- TF15, TF16. -/
theorem test_sne_reg : (after 0x9120 (regs [(1, 1#8), (2, 2#8)])).pc = 0x204#16 ∧
    (after 0x9330 State.reset).pc = 0x202#16 := by decide
/-- TF20. -/
theorem test_skip_at_the_top : (after 0x3000 { State.reset with pc := 0xFFE#16 }).pc = 0x1002#16 := by decide
/-- TF21, TF22. -/
theorem test_jp_v0 : (after 0xB300 (regs [(0, 4#8)])).pc = 0x304#16 ∧
    (after 0xBFFF (regs [(0, 0xFF#8)])).pc = 0x10FE#16 := by decide
/-- TF24: the second byte of the fetch is out of range. -/
theorem test_fetch_second_byte : step { State.reset with pc := 0xFFF#16 } =
    .next { State.reset with pc := 0xFFF#16, run := .faulted ⟨.outOfBounds, 0xFFF#16, none, some 0x1000⟩ } := by rfl
/-- TF17. -/
theorem test_illegal_word : (after 0x5121 State.reset).run =
    .faulted { kind := .decodeError, pc := 0x200#16, opcode := some 0x5121#16, addr := none } := by decide
/-- TF25. -/
theorem test_faulted_stays : step faultedState = .next faultedState := by rfl

/-- The codes of R271. -/
theorem test_fault_codes : [FaultKind.decodeError, .stackUnderflow, .outOfBounds, .stackOverflow].map FaultKind.code =
    [1, 2, 3, 4] := by decide

/-! ### Registers and ALU (TA) -/

/-- TA1. -/
theorem test_ld_byte : (after 0x6A42 State.reset).reg 0xA = 0x42#8 := by decide
/-- TA3: no flag, although the sum carries. -/
theorem test_add_byte : (after 0x71F0 (regs [(1, 0x20#8), (15, 7#8)])).reg 1 = 0x10#8 ∧
    (after 0x71F0 (regs [(1, 0x20#8), (15, 7#8)])).reg 15 = 7#8 := by decide
/-- TA37: VF as a plain destination. -/
theorem test_add_byte_vf : (after 0x7FFF (regs [(15, 1#8)])).reg 15 = 0#8 := by decide
/-- TA4. -/
theorem test_ld_reg : (after 0x8120 (regs [(2, 9#8)])).reg 1 = 9#8 := by decide
/-- TA5. -/
theorem test_or : (after 0x8121 (regs [(1, 0x0F#8), (2, 0xF0#8), (15, 1#8)])).reg 1 = 0xFF#8 ∧
    (after 0x8121 (regs [(1, 0x0F#8), (2, 0xF0#8), (15, 1#8)])).reg 15 = 0#8 := by decide
/-- TA29: with x = F the flag stands. -/
theorem test_or_vf : (after 0x8F21 (regs [(15, 0x0F#8), (2, 0xF0#8)])).reg 15 = 0#8 := by decide
/-- TA6. -/
theorem test_and : (after 0x8122 (regs [(1, 0x3C#8), (2, 0x0F#8)])).reg 1 = 0x0C#8 := by decide
/-- TA7. -/
theorem test_xor : (after 0x8123 (regs [(1, 0xFF#8), (2, 0x0F#8)])).reg 1 = 0xF0#8 := by decide
/-- TA8. -/
theorem test_add_reg : (after 0x8124 (regs [(1, 0x80#8), (2, 0x80#8)])).reg 1 = 0#8 ∧
    (after 0x8124 (regs [(1, 0x80#8), (2, 0x80#8)])).reg 15 = 1#8 := by decide
/-- TA38: VF as a source. -/
theorem test_add_reg_vf_source : (after 0x81F4 (regs [(1, 0xFF#8), (15, 1#8)])).reg 1 = 0#8 ∧
    (after 0x81F4 (regs [(1, 0xFF#8), (15, 1#8)])).reg 15 = 1#8 := by decide
/-- TA10: equal values, a strict comparison. -/
theorem test_sub_equal : (after 0x8125 (regs [(1, 7#8), (2, 7#8), (15, 1#8)])).reg 15 = 0#8 := by decide
/-- TA11. -/
theorem test_sub : (after 0x8125 (regs [(2, 0xFF#8)])).reg 1 = 1#8 ∧ (after 0x8125 (regs [(2, 0xFF#8)])).reg 15 = 0#8 := by decide
/-- TA12. -/
theorem test_subn : (after 0x8127 (regs [(1, 3#8), (2, 5#8)])).reg 1 = 2#8 ∧
    (after 0x8127 (regs [(1, 3#8), (2, 5#8)])).reg 15 = 1#8 := by decide
/-- TA14. -/
theorem test_subn_equal : (after 0x8127 (regs [(1, 7#8), (2, 7#8), (15, 1#8)])).reg 15 = 0#8 := by decide
/-- TA18: under TABLE the flag is from Vx and the result from Vy. -/
theorem test_shr_table : (after 0x8126 (regs [(1, 1#8), (2, 4#8)])).reg 1 = 2#8 ∧
    (after 0x8126 (regs [(1, 1#8), (2, 4#8)])).reg 15 = 1#8 := by decide
/-- TA17. -/
theorem test_shr_in_place : (after 0x8126 (inPlace (regs [(1, 3#8), (2, 0x10#8)]))).reg 1 = 1#8 := by decide
/-- TA22. -/
theorem test_shl_table : (after 0x812E (regs [(1, 0x80#8), (2, 0x41#8)])).reg 1 = 0x82#8 ∧
    (after 0x812E (regs [(1, 0x80#8), (2, 0x41#8)])).reg 15 = 1#8 := by decide
/-- TA25. -/
theorem test_shl_in_place : (after 0x812E (inPlace (regs [(1, 1#8), (2, 0x80#8)]))).reg 1 = 2#8 := by decide
/-- TA27. -/
theorem test_rnd : (after 0xC30F { State.reset with rand := [0xA7#8] }).reg 3 = 7#8 ∧
    (after 0xC30F { State.reset with rand := [0xA7#8] }).rand = [] := by decide

/-! ### Display (TD) -/

/-- TD1. -/
theorem test_drw : (after 0xD011 (at_ 0x300#16 [0xF0#8] State.reset)).fb = 0xF#2048 := by decide +kernel
/-- TD5: both edges wrap. -/
theorem test_drw_wraps : (after 0xD012 (at_ 0x300#16 [0xFF#8, 0x81#8] (regs [(0, 62#8), (1, 31#8)]))).fb =
    BitVec.ofNat 2048 (2 ^ 5 + 2 ^ 62 + 63 * 2 ^ 1984 + 2 ^ 2046 + 2 ^ 2047) := by decide +kernel
/-- TD7: the coordinates are the old VF. -/
theorem test_drw_vf_coordinates :
    (after 0xDFF1 { at_ 0x300#16 [0x80#8] (regs [(15, 3#8)]) with fb := BitVec.twoPow 2048 195 }).fb = 0 ∧
    (after 0xDFF1 { at_ 0x300#16 [0x80#8] (regs [(15, 3#8)]) with fb := BitVec.twoPow 2048 195 }).reg 15 = 1#8 := by decide +kernel
/-- TD11. -/
theorem test_cls : (after 0x00E0 { regs [(15, 9#8)] with fb := BitVec.allOnes 2048 }).fb = 0 ∧
    (after 0x00E0 { regs [(15, 9#8)] with fb := BitVec.allOnes 2048 }).reg 15 = 9#8 := by decide +kernel

/-! ### Index register and memory (TM) -/

/-- TM1. -/
theorem test_ld_i : (after 0xA2F0 State.reset).i = 0x2F0#16 := by decide
/-- TM2, TM3. -/
theorem test_add_i : (after 0xF01E { regs [(0, 1#8)] with i := 0xFFFF#16 }).i = 0#16 ∧
    (after 0xF01E { regs [(0, 1#8)] with i := 0x0FFF#16 }).i = 0x1000#16 := by decide
/-- TM4. -/
theorem test_ld_f : (after 0xF029 (regs [(0, 0x10#8)])).i = 0x050#16 ∧ (after 0xF029 (regs [(0, 0xFF#8)])).i = 0x4FB#16 := by decide
/-- TM6. -/
theorem test_ld_b : (after 0xF033 { regs [(0, 123#8)] with i := 0xFFD#16 }).mem.drop 2 =
    [(0xFFD, 1#8), (0xFFE, 2#8), (0xFFF, 3#8)] := by decide +kernel
/-- TM7: nothing is written. -/
theorem test_ld_b_fault : after 0xF033 { regs [(0, 123#8)] with i := 0xFFE#16 } =
    { regs [(0, 123#8)] with
      i := 0xFFE#16
      mem := [(0x200, 0xF0#8), (0x201, 0x33#8)]
      run := .faulted ⟨.outOfBounds, 0x200#16, some 0xF033#16, some 0x1000⟩ } := by decide +kernel
/-- TM9. -/
theorem test_store_regs : (after 0xFF55 { counting with i := 0x300#16 }).mem.drop 2 =
      (List.range 16).map (fun k => (0x300 + k, BitVec.ofNat 8 (0x10 + k))) ∧
    (after 0xFF55 { counting with i := 0x300#16 }).i = 0x310#16 := by decide +kernel
/-- TM9, without the advance. -/
theorem test_store_regs_no_advance : (after 0xFF55 (noAdvance { counting with i := 0x300#16 })).i = 0x300#16 := by decide +kernel
/-- TM16, on two registers of the block. -/
theorem test_load_regs :
    (after 0xFF65 (at_ 0x300#16 ((List.range 16).map fun k => BitVec.ofNat 8 (0xA0 + k)) State.reset)).v =
      Vector.ofFn (fun k => BitVec.ofNat 8 (0xA0 + k.val)) ∧
    (after 0xFF65 (at_ 0x300#16 [] State.reset)).i = 0x310#16 := by decide +kernel
/-- TM17. -/
theorem test_load_regs_fault : (after 0xF065 { regs [(0, 5#8)] with i := 0x1000#16 }).run =
      .faulted ⟨.outOfBounds, 0x200#16, some 0xF065#16, some 0x1000⟩ := by decide +kernel

/-! ### Keypad and timers (TK) -/

/-- TK1, TK4. -/
theorem test_skp : (after 0xE59E { regs [(5, 0x0A#8)] with keys := BitVec.twoPow 16 0xA }).pc = 0x204#16 ∧
    (after 0xE59E { regs [(5, 0x10#8)] with keys := 1 }).pc = 0x202#16 := by decide
/-- TK2, TK5. -/
theorem test_sknp : (after 0xE5A1 { regs [(5, 0x0A#8)] with keys := BitVec.twoPow 16 0xA }).pc = 0x202#16 ∧
    (after 0xE5A1 { regs [(5, 0x10#8)] with keys := 1 }).pc = 0x204#16 := by decide
/-- TK6. -/
theorem test_ld_k : (after 0xF20A { State.reset with keys := 0x1080#16 }).reg 2 = 7#8 ∧
    (after 0xF20A { State.reset with keys := 0x1080#16 }).status = .ok := by decide +kernel
/-- TK7. -/
theorem test_ld_k_waits : (after 0xF20A State.reset).status = .needsInput ∧
    (after 0xF20A State.reset).pc = 0x202#16 := by decide +kernel
/-- TK9: keys 9 and 3 are held. -/
theorem test_wait_ends : step { State.reset with run := .waitKey 2, pc := 0x202#16, keys := 0x208#16 } =
    .next { regs [(2, 3#8)] with pc := 0x202#16, keys := 0x208#16 } := by rfl
/-- TK12: 0x10 names no key. -/
theorem test_key_enable : pressKey 0#16 0xE = 0x4000#16 ∧ pressKey 0#16 0x10 = 0#16 ∧ releaseKey 0xFFFF#16 0 = 0xFFFE#16 := by decide
/-- TK14. -/
theorem test_ld_vx_dt : (after 0xF307 { State.reset with dt := 0x3C#8 }).reg 3 = 0x3C#8 := by decide
/-- TK13. -/
theorem test_ld_dt : (after 0xF015 (regs [(0, 60#8)])).dt = 60#8 := by decide
/-- TK15. -/
theorem test_ld_st : (after 0xF118 (regs [(1, 2#8)])).st = 2#8 ∧ (after 0xF118 (regs [(1, 2#8)])).soundOn = true := by decide
/-- TK13, TK16. -/
theorem test_tick : tick 60#8 = 59#8 ∧ tick 0#8 = 0#8 := by decide

/-! ### Reset (TX) -/

/-- TX2, TX3: the longest ROM loads, one byte more does not. -/
theorem test_rom_loads : romLoads (List.replicate 3584 1#8) = true ∧ romLoads (List.replicate 3585 1#8) = false := by
  simp only [romLoads, List.length_replicate]
  decide
/-- TX4, TX5: reset leaves FAULTED and clears K. -/
theorem test_reset_from_faulted : deliver (.reset [0x12#8, 0x00#8]) { faultedState with keys := 8#16, dt := 3#8 } =
    .next { State.reset with mem := [(0x200, 0x12#8)] } := by rfl

/-! ### Witnesses: for every obligation with hypotheses, a case that meets them, clause by clause -/

/-- The word w in memory at PC. -/
def holding (w : Nat) (s : State) : State := s.withFetchWord 16 w

/-- A draw of a sprite whose first bit is set, on a cell that is off. -/
def drawOff : State := at_ 0x300#16 [0x80#8] State.reset

/-- The same on a cell that is on. -/
def drawOn : State := { drawOff with fb := 1 }

/-- V0, V1 = 0x12, 0x00, to be stored where PC points: at the top of memory. -/
def selfModifying : State := { regs [(0, 0x12#8)] with pc := 0xFFE#16, i := 0xFFE#16 }

/-- A state in the middle of a run, at a bound of each clause of the invariant. -/
def midRun : State := bounded 2 { State.reset with
  pc := 0x10FE#16
  stack := [0x0002#16, 0x1000#16]
  mem := [(0, 1#8), (0xFFF, 2#8)]
  run := .faulted ⟨.outOfBounds, 0x10FE#16, none, some 0x10FE⟩ }

theorem witness_DecodeOfEncodeIsTheInstruction : (Instr.drw 15 15 15).wf = true ∧ (Instr.sys 0xFFF).wf = true := by decide

theorem witness_EncodeOfDecodeIsTheWord : decode 0xFF65#16 = .ok (.ldVxMem 15) := by rfl

theorem witness_RowsAreSelectedByMaskAndMatch :
    decode 0x8F2E#16 = .ok (.shl 15 2) ∧
    0x8F2E#16 &&& (tableRow (.shl 0 0)).2 = (tableRow (.shl 0 0)).1 ∧
    0x00EF#16 &&& (tableRow (.sys 5)).2 = (tableRow (.sys 5)).1 ∧ 0x00EF#16 ≠ 0x00E0#16 ∧ 0x00EF#16 ≠ 0x00EE#16 :=
  ⟨rfl, by decide⟩

/-- A word in the last two bytes of memory is fetched; both forms of the schedule. -/
theorem witness_StepRunsTheDecodedInstruction :
    (holding 0x6A42 { State.reset with pc := 0xFFE#16 }).run = .running ∧
    (holding 0x6A42 { State.reset with pc := 0xFFE#16 }).pc.toNat + 1 < 4096 ∧
    decode (wordOfBytes ((holding 0x6A42 { State.reset with pc := 0xFFE#16 }).mem.read 0xFFE)
      ((holding 0x6A42 { State.reset with pc := 0xFFE#16 }).mem.read 0xFFF)) = .ok (.ldByte 0xA 0x42) ∧
    (holding 0x6A42 { State.reset with pc := 0xFFE#16 }).schedule = [] ∧
    { State.reset with schedule := [.cycle, .tickDt] }.schedule = Event.cycle :: [.tickDt] :=
  ⟨rfl, by decide, rfl, rfl, rfl⟩

theorem witness_StepDeliversTheScheduledEvent :
    State.reset.schedule = [] ∧ { State.reset with schedule := [.stClear] }.schedule = Event.stClear :: [] := by decide

theorem witness_FetchOutOfRangeFaults :
    State.reset.run = .running ∧
    { State.reset with pc := 0x0FFE#16 }.pc.toNat + 1 < 4096 ∧
    0x1000 ≤ { State.reset with pc := 0x1000#16 }.pc.toNat ∧ { State.reset with pc := 0x0FFF#16 }.pc = 0x0FFF#16 := by decide

theorem witness_IllegalWordRaisesDecodeError :
    (holding 0x5121 State.reset).run = .running ∧
    (holding 0x5121 State.reset).pc.toNat + 1 < 4096 ∧
    ∀ i, decode (wordOfBytes ((holding 0x5121 State.reset).mem.read 0x200) ((holding 0x5121 State.reset).mem.read 0x201)) ≠ .ok i :=
  ⟨rfl, by decide, fun _ h => Except.noConfusion rfl rfl (heq_of_eq h)⟩

theorem witness_StoreIsSeenByTheNextFetch :
    selfModifying.mem.wf = true ∧ selfModifying.run = .running ∧
    selfModifying.i.toNat + (1 : Reg).val < 4096 ∧ (0 : Reg).val + 1 ≤ (1 : Reg).val ∧
    selfModifying.pc.toNat = selfModifying.i.toNat + (0 : Reg).val ∧
    decode (wordOfBytes (selfModifying.reg 0) (selfModifying.reg (0 + 1))) = .ok (.jp 0x200) :=
  ⟨by decide, rfl, by decide, by decide, by decide, rfl⟩

theorem witness_OnlyResetLeavesFaulted :
    faultedState.run = .faulted underflowInfo ∧
    deliver .tickDt faultedState = .next faultedState ∧ (∀ rom, Event.tickDt ≠ .reset rom) ∧
    ∃ rom : List Byte, rom.length = 3584 :=
  ⟨rfl, rfl, fun _ h => Event.noConfusion h, List.replicate 3584 0#8, List.length_replicate⟩

theorem witness_OnlyNamedRegistersAreWritten :
    ∃ t, exec (.addReg 1 2) (regs [(1, 0xFF#8), (2, 1#8)]) = .next t ∧
      t.reg 1 ≠ (regs [(1, 0xFF#8), (2, 1#8)]).reg 1 ∧ t.reg 15 ≠ (regs [(1, 0xFF#8), (2, 1#8)]).reg 15 :=
  ⟨_, rfl, by decide, by decide⟩

/-- One for each clause: FB, the stack, memory, I, DT, ST, PC. -/
theorem witness_EachPartIsWrittenByItsOwnInstructions :
    (∃ t, exec .cls drawOn = .next t ∧ t.fb ≠ drawOn.fb) ∧
    (∃ t, exec (.call 0x300) State.reset = .next t ∧ t.stack ≠ State.reset.stack) ∧
    (∃ t, exec (.ldBVx 0) (regs [(0, 9#8)]) = .next t ∧ t.mem ≠ (regs [(0, 9#8)]).mem) ∧
    (∃ t, exec (.ldI 0x300) State.reset = .next t ∧ t.i ≠ State.reset.i) ∧
    (∃ t, exec (.ldDtVx 1) (regs [(1, 2#8)]) = .next t ∧ t.dt ≠ State.reset.dt) ∧
    (∃ t, exec (.ldStVx 1) (regs [(1, 2#8)]) = .next t ∧ t.st ≠ State.reset.st) ∧
    (∃ t, exec (.jp 0x300) State.reset = .next t ∧ t.pc ≠ State.reset.pc ∧ ∀ info, t.run ≠ .faulted info) :=
  ⟨⟨_, rfl, by decide +kernel⟩, ⟨_, rfl, by decide⟩, ⟨_, rfl, by decide⟩, ⟨_, rfl, by decide⟩, ⟨_, rfl, by decide⟩,
    ⟨_, rfl, by decide⟩, ⟨_, rfl, by decide, fun _ h => RunState.noConfusion h⟩⟩

/-- The invariant's clauses are met together at their bounds. -/
theorem witness_EveryStepKeepsTheInvariant : Inv midRun ∧ ∃ t, step midRun = .next t := by
  refine ⟨⟨by decide, by decide, by decide, ?_, ?_, ?_⟩, _, rfl⟩
  · intro a ha
    simp only [midRun, bounded, List.mem_cons, List.not_mem_nil, or_false] at ha
    rcases ha with rfl | rfl <;> decide
  · intro d hd
    obtain rfl : 2 = d := Option.some.inj hd
    decide
  · intro info h
    obtain rfl := RunState.faulted.inj h
    exact ⟨rfl, _, rfl, by decide⟩

theorem witness_SoundTimerIsInvisibleToPrograms : ∃ t, step { State.reset with st := 5#8 } = .next t := ⟨_, rfl⟩

theorem witness_MemoryReadsAndWrites : Memory.wf [(0xFFF, 1#8)] = true ∧ 4096 ≤ 0x1000 ∧ 0xFFF < 4096 := by decide

theorem witness_CanonicalMemoriesAreDeterminedByTheirBytes :
    Memory.wf (Memory.write (Memory.write [] 4 1#8) 3 2#8) = true ∧ Memory.wf (Memory.write (Memory.write [] 3 2#8) 4 1#8) = true ∧
    ∀ a, Memory.read (Memory.write (Memory.write [] 4 1#8) 3 2#8) a = Memory.read (Memory.write (Memory.write [] 3 2#8) 4 1#8) a :=
  ⟨by decide, by decide, fun _ => rfl⟩

/-- A bounded stack with one entry free, and the same stack full. -/
theorem witness_CallPushesAndJumps :
    (bounded 2 { State.reset with stack := [2#16] }).cfg.stackDepth ≠ some (bounded 2 { State.reset with stack := [2#16] }).stack.length ∧
    (bounded 2 { State.reset with stack := [2#16, 4#16] }).cfg.stackDepth =
      some (bounded 2 { State.reset with stack := [2#16, 4#16] }).stack.length := by decide

theorem witness_RetPopsIntoPc : { State.reset with stack := [2#16, 4#16] }.stack = [2#16] ++ [4#16] ∧ State.reset.stack = [] := by decide

/-- No rows with I outside memory, and fifteen rows that end at the last byte. -/
theorem witness_DrwTogglesTheSpriteCells :
    ((0 : Fin 16).val = 0 ∨ { State.reset with i := 0xFFFF#16 }.i.toNat + (0 : Fin 16).val ≤ 4096) ∧
    { State.reset with i := 0xFF1#16 }.i.toNat + (15 : Fin 16).val ≤ 4096 ∧
    (∃ r c, r < (1 : Fin 16).val ∧ c < 8 ∧ (drawOn.mem.read (drawOn.i.toNat + r)).getLsbD (7 - c) = true ∧
      pix drawOn.fb (((drawOn.reg 1).toNat + r) % 32 * 64 + ((drawOn.reg 0).toNat + c) % 64) = true) ∧
    ¬ (∃ r c, r < (1 : Fin 16).val ∧ c < 8 ∧ (drawOff.mem.read (drawOff.i.toNat + r)).getLsbD (7 - c) = true ∧
      pix drawOff.fb (((drawOff.reg 1).toNat + r) % 32 * 64 + ((drawOff.reg 0).toNat + c) % 64) = true) := by
  refine ⟨.inl rfl, by decide, ⟨0, 0, by decide, by decide, by decide, by decide +kernel⟩, ?_⟩
  rintro ⟨r, c, -, -, -, h⟩
  simp [pix, drawOff, at_, State.reset] at h

/-- On a cell that is off (the second draw collides), and on a cell that is on (it does not). -/
theorem witness_DrawingTwiceRestoresTheFrame :
    (∃ t, drawOff.i.toNat + (1 : Fin 16).val ≤ 4096 ∧ exec (.drw 0 1 1) drawOff = .next t ∧
      t.reg 0 = drawOff.reg 0 ∧ t.reg 1 = drawOff.reg 1) ∧
    ∃ t, drawOn.i.toNat + (1 : Fin 16).val ≤ 4096 ∧ exec (.drw 0 1 1) drawOn = .next t ∧
      t.reg 0 = drawOn.reg 0 ∧ t.reg 1 = drawOn.reg 1 :=
  ⟨⟨_, by decide, exec_drw_ok 0 1 1 drawOff (.inr (by decide)), by decide +kernel, by decide +kernel⟩,
    ⟨_, by decide, exec_drw_ok 0 1 1 drawOn (.inr (by decide)), by decide +kernel, by decide +kernel⟩⟩

theorem witness_SecondDrawCollidesWheneverTheSpriteIsNotEmpty :
    ∃ t u, exec (.drw 0 1 1) drawOff = .next t ∧ t.reg 0 = drawOff.reg 0 ∧ t.reg 1 = drawOff.reg 1 ∧
      exec (.drw 0 1 1) t = .next u ∧ ∃ r, r < (1 : Fin 16).val ∧ drawOff.mem.read (drawOff.i.toNat + r) ≠ 0#8 :=
  ⟨_, _, exec_drw_ok 0 1 1 drawOff (.inr (by decide)), by decide +kernel, by decide +kernel,
    exec_drw_ok 0 1 1 _ (.inr (by decide +kernel)), 0, by decide, by decide⟩

theorem witness_RndMasksTheDrawnByte :
    { State.reset with rand := [0xA7#8, 1#8] }.rand = 0xA7#8 :: [1#8] ∧ State.reset.rand = [] := by decide

theorem witness_BcdStoresThreeDigits : State.reset.mem.wf = true ∧ { State.reset with i := 0xFFD#16 }.i.toNat + 2 < 4096 := by decide

theorem witness_StoreRegistersWritesTheBlock :
    State.reset.mem.wf = true ∧ { State.reset with i := 0xFF0#16 }.i.toNat + (15 : Reg).val < 4096 ∧
    { State.reset with i := 0xFFF#16 }.i.toNat + (0 : Reg).val < 4096 ∧
    State.reset.cfg.lsAdvanceI = true ∧ ¬ (noAdvance State.reset).cfg.lsAdvanceI = true := by decide

theorem witness_LoadRegistersReadsTheBlock : { State.reset with i := 0xFF0#16 }.i.toNat + (15 : Reg).val < 4096 := by decide

/-- One byte too many, for each of the four. -/
theorem witness_DataAccessOutOfRangeFaults :
    4096 < { State.reset with i := 0xFFE#16 }.i.toNat + (3 : Fin 16).val ∧ 1 ≤ (3 : Fin 16).val ∧
    4096 < { State.reset with i := 0xFFE#16 }.i.toNat + 3 ∧
    4096 < { State.reset with i := 0x1000#16 }.i.toNat + ((0 : Reg).val + 1) ∧
    4096 < { State.reset with i := 0xFF1#16 }.i.toNat + ((15 : Reg).val + 1) := by decide

/-- With the advance, the second block ends at the last byte; I set to A between the two; and without the advance. -/
theorem witness_StoreThenLoadRoundTrip :
    (∃ t u t' u', { counting with i := 0xFFC#16 }.i.toNat + 2 * (1 : Reg).val + 1 < 4096 ∧
      exec (.ldMemVx 1) { counting with i := 0xFFC#16 } = .next t ∧ exec (.ldVxMem 1) t = .next u ∧
      (0xFFC#12 : Addr).toNat = { counting with i := 0xFFC#16 }.i.toNat ∧
      exec (.ldI 0xFFC) t = .next t' ∧ exec (.ldVxMem 1) t' = .next u') ∧
    ∃ t u, (noAdvance { counting with i := 0xFFE#16 }).i.toNat + (1 : Reg).val < 4096 ∧
      exec (.ldMemVx 1) (noAdvance { counting with i := 0xFFE#16 }) = .next t ∧ exec (.ldVxMem 1) t = .next u ∧
      (noAdvance { counting with i := 0xFFE#16 }).cfg.lsAdvanceI = false :=
  ⟨⟨_, _, _, _, by decide, rfl, rfl, by decide, rfl, rfl⟩, _, _, by decide, rfl, rfl, rfl⟩

/-- Keys 0xF and 0x3 are held: 3 is the least; and none is held. -/
theorem witness_KeyLoadTakesTheLowestKeyOrWaits :
    (0x8008#16 : Keypad).getLsbD (3 : Reg).val = true ∧
    (∀ d : Reg, d.val < (3 : Reg).val → (0x8008#16 : Keypad).getLsbD d.val = false) ∧ State.reset.keys = 0 := by decide

theorem witness_WaitingCycleTakesAKeyOrChangesNothing :
    { State.reset with run := .waitKey 15, keys := 0x8000#16 }.run = .waitKey 15 ∧
    (0x8000#16 : Keypad).getLsbD (15 : Reg).val = true ∧
    (∀ d : Reg, d.val < (15 : Reg).val → (0x8000#16 : Keypad).getLsbD d.val = false) ∧ State.reset.keys = 0 := by decide

theorem witness_TicksCountDownToZero : { State.reset with dt := 1#8, schedule := [.tickDt, .tickDt] }.schedule =
    List.replicate 2 .tickDt := by decide

theorem witness_FaultsArePrecise : ∃ t info,
    (holding 0x00EE State.reset).run = .running ∧ executeCycle (holding 0x00EE State.reset) = .next t ∧ t.run = .faulted info :=
  ⟨_, _, rfl, rfl, rfl⟩

/-- RET on an empty stack, CALL on a full one, FX33 at the top of memory. -/
theorem witness_FaultsHaveTheirCauses :
    (∃ t info, exec .ret State.reset = .next t ∧ State.reset.run = .running ∧ t.run = .faulted info) ∧
    (∃ t info, exec (.call 0x300) (bounded 1 { State.reset with stack := [2#16] }) = .next t ∧ t.run = .faulted info) ∧
    ∃ t info, exec (.ldBVx 0) { State.reset with i := 0xFFE#16 } = .next t ∧ t.run = .faulted info :=
  ⟨⟨_, _, rfl, rfl, rfl⟩, ⟨_, _, rfl, rfl⟩, _, _, rfl, rfl⟩

/-- Codes at both ends of the keypad, and the first that names no key. -/
theorem witness_KeyEventsSetAndClearTheirKey : 0 < 16 ∧ 15 < 16 ∧ 16 ≤ 0x10 := by decide

theorem witness_OutputsReadTheState :
    State.reset.run = .running ∧ { State.reset with run := .waitKey 2 }.run = .waitKey 2 ∧
    faultedState.run = .faulted underflowInfo := by decide

theorem witness_RandomByteFeedsTheNextDraw : State.reset.rand = [] := by decide

theorem witness_IdleSelfJumpRepeats :
    (holding 0x1200 State.reset).run = .running ∧
    selfJump (holding 0x1200 State.reset) = true := by decide

theorem witness_ResetStateIsResetWithoutRom : ∃ t, deliver (.reset [0x12#8]) { faultedState with rand := [1#8] } = .next t :=
  ⟨_, rfl⟩

/-- A font image that fills 0x000-0x1FF, and the longest ROM. -/
theorem witness_ResetLoadsTheRom :
    { Config.hardware with fontImage := some (List.replicate 0x200 7#8) }.wf = true ∧ ∃ rom : List Byte, rom.length = 3584 :=
  ⟨by decide +kernel, List.replicate 3584 7#8, List.length_replicate⟩

theorem witness_TooLongRomIsRefused :
    romLoads (List.replicate 3584 7#8) = true ∧ State.reset.cfg.wf = true ∧
    (List.replicate 3584 7#8)[3583]? = some 7#8 ∧ romLoads (List.replicate 3585 0#8) = false := by
  refine ⟨?_, by decide, List.getElem?_replicate_of_lt (by decide), ?_⟩ <;>
    (simp only [romLoads, List.length_replicate]; decide)

/-- A fair execution that counts DT and ST down from 1, the ticks taking turns. -/
def countdown : Execution where
  state n :=
    match n with
    | 0 => { State.reset with dt := 1#8, st := 1#8 }
    | 1 => { State.reset with st := 1#8 }
    | _ + 2 => State.reset
  event n := if n % 2 = 0 then .tickDt else .tickSt

theorem countdown_follows : countdown.Follows := by
  intro n
  match n with
  | 0 => rfl
  | 1 => rfl
  | n + 2 =>
    rw [step_setSchedule_cons]
    show deliver (if (n + 2) % 2 = 0 then .tickDt else .tickSt) State.reset = .next State.reset
    split <;> rfl

theorem countdown_fair : countdown.Fair := by
  refine ⟨fun n => ⟨2 * n, by omega, ?_⟩, fun n => ⟨2 * n + 1, by omega, ?_⟩⟩
  · exact if_pos (by omega)
  · exact if_neg (by omega)

/-- No event of it is a cycle, so no cycle changes a timer. -/
theorem countdown_only_ticks (m : Nat) : countdown.event m ≠ .cycle := by
  show (if m % 2 = 0 then Event.tickDt else .tickSt) ≠ .cycle
  split <;> decide

theorem witness_EveryPrefixOfAnExecutionIsARunOfStep : countdown.Follows := countdown_follows

theorem witness_AnyInterleavingBeginsAFairExecution : [Event.cycle, .tickDt][1]? = some .tickDt := by decide

/-- From the first state on, where both timers are still above 0. -/
theorem witness_FairExecutionsRunTheTimersDown :
    countdown.Follows ∧ countdown.Fair ∧
    (∀ m, 0 ≤ m → countdown.event m = .cycle → (countdown.state (m + 1)).dt = (countdown.state m).dt) ∧
    (∀ m, 0 ≤ m → countdown.event m = .cycle → (countdown.state (m + 1)).st = (countdown.state m).st) ∧
    (countdown.state 0).dt = 1#8 ∧ (countdown.state 0).st = 1#8 :=
  ⟨countdown_follows, countdown_fair, fun m _ h => absurd h (countdown_only_ticks m),
    fun m _ h => absurd h (countdown_only_ticks m), rfl, rfl⟩

/-- R290 (a), (b) and (c), the last with ticks still to come. -/
theorem witness_TheFirstEndOfTheRunIsObserved :
    faultedState.run = .faulted underflowInfo ∧
    (wordOfBytes ((holding 0x1200 State.reset).mem.read 0x200) ((holding 0x1200 State.reset).mem.read 0x201)).toNat =
      0x1000 + (holding 0x1200 State.reset).pc.toNat ∧
    endOfRun { State.reset with run := .waitKey 2, schedule := [.tickDt, .stClear] } = true ∧
    endOfRun { State.reset with run := .waitKey 2, schedule := [.tickDt, .keyEnable 4] } = false ∧
    observed 2 (holding 0x00EE State.reset) =
      some { holding 0x00EE State.reset with run := .faulted underflowInfo } := by decide +kernel

/-! ### The host's questions -/

/-- The core behind the interface is this machine. -/
theorem test_core : Sys2Proof.core.reset = State.reset ∧ Sys2Proof.core.step State.reset = step State.reset := ⟨rfl, rfl⟩

end Sys2Proof.Machine.Tests
end

/-! PROOF. The statements about the state (10_state.md): what an instruction writes, the invariant that every step
keeps, that no program observes ST, and what reset and the host's events do. -/

namespace Sys2Proof.Machine

/-! ### What an instruction writes, said once -/

/-- The parts of the state an instruction may change when it completes (R10, R21, R29, R33, R37, R40, R65, R123). -/
def writtenParts (i : Instr) : List Part :=
  match i with
  | .sys _ => []
  | .cls => [.fb]
  | .ret => [.pc, .stack]
  | .jp _ => [.pc]
  | .call _ => [.pc, .stack]
  | .seByte _ _ => [.pc]
  | .sneByte _ _ => [.pc]
  | .seReg _ _ => [.pc]
  | .ldByte _ _ => [.v]
  | .addByte _ _ => [.v]
  | .ldReg _ _ => [.v]
  | .orReg _ _ => [.v]
  | .andReg _ _ => [.v]
  | .xorReg _ _ => [.v]
  | .addReg _ _ => [.v]
  | .subReg _ _ => [.v]
  | .shr _ _ => [.v]
  | .subn _ _ => [.v]
  | .shl _ _ => [.v]
  | .sneReg _ _ => [.pc]
  | .ldI _ => [.i]
  | .jpV0 _ => [.pc]
  | .rnd _ _ => [.v, .rand]
  | .drw _ _ _ => [.v, .fb]
  | .skp _ => [.pc]
  | .sknp _ => [.pc]
  | .ldVxDt _ => [.v]
  | .ldVxK _ => [.v, .run]
  | .ldDtVx _ => [.dt]
  | .ldStVx _ => [.st]
  | .addIVx _ => [.i]
  | .ldFVx _ => [.i]
  | .ldBVx _ => [.mem]
  | .ldMemVx _ => [.mem, .i]
  | .ldVxMem _ => [.v, .i]

/-- An instruction that completes takes s to t: it changes the listed parts only, it may wait for a key, and it never
touches K, the parameters or the schedule. Memory is compared as data. -/
structure Completes (parts : List Part) (s t : State) : Prop where
  v : t.v ≠ s.v → Part.v ∈ parts
  pc : t.pc ≠ s.pc → Part.pc ∈ parts
  i : t.i ≠ s.i → Part.i ∈ parts
  stack : t.stack ≠ s.stack → Part.stack ∈ parts
  mem : t.mem ≠ s.mem → Part.mem ∈ parts
  dt : t.dt ≠ s.dt → Part.dt ∈ parts
  st : t.st ≠ s.st → Part.st ∈ parts
  fb : t.fb ≠ s.fb → Part.fb ∈ parts
  keys : t.keys = s.keys
  cfg : t.cfg = s.cfg
  schedule : t.schedule = s.schedule
  rand : (t.rand ≠ s.rand ∨ t.draws ≠ s.draws) → Part.rand ∈ parts
  run : t.run = s.run ∨ Part.run ∈ parts ∧ ∃ x, t.run = .waitKey x

/-- A fault raised in the execute phase: nothing is written but run and PC, and the record is legal (R31, R272). -/
def Faults (i : Instr) (s t : State) : Prop :=
  ∃ e : Raise, t = takeFault e (s.pc - 2#16) (some (encode i)) s ∧
    FaultInfo.Legal s.cfg ⟨e.kind, s.pc - 2#16, some (encode i), e.addr⟩

/-- A data access that runs out of memory leaves a legal record. -/
theorem faults_outOfBounds (i : Instr) (s : State) :
    Faults i s (takeFault (.outOfBounds (max s.i.toNat memSize)) (s.pc - 2#16) (some (encode i)) s) :=
  ⟨_, rfl, _, rfl, Nat.le_max_right _ _⟩

/-- Every instruction completes, or faults and writes nothing (R10, R272). -/
theorem exec_completes_or_faults (i : Instr) (s t : State) (h : exec i s = .next t) :
    Completes (writtenParts i) s t ∨ Faults i s t := by
  cases i
  case ret =>
    obtain ⟨l, a, -, rfl⟩ | ⟨-, rfl⟩ := exec_ret_cases s t h
    · exact .inl (by constructor <;> simp [writtenParts])
    · exact .inr ⟨_, rfl, rfl, rfl⟩
  case call n =>
    obtain ⟨-, rfl⟩ | ⟨hd, rfl⟩ := exec_call_cases n s t h
    · exact .inl (by constructor <;> simp [writtenParts])
    · exact .inr ⟨_, rfl, rfl, by rw [hd]; exact Option.some_ne_none _, n, rfl⟩
  case drw x y n =>
    obtain ⟨-, rfl⟩ | ⟨-, -, rfl⟩ := exec_drw_cases x y n s t h
    · exact .inl (by constructor <;> simp [writtenParts])
    · exact .inr (faults_outOfBounds _ s)
  case ldBVx x =>
    obtain ⟨-, rfl⟩ | ⟨-, rfl⟩ := exec_ldBVx_cases x s t h
    · exact .inl (by constructor <;> simp [writtenParts])
    · exact .inr (faults_outOfBounds _ s)
  case ldMemVx x =>
    obtain ⟨-, rfl⟩ | ⟨-, rfl⟩ := exec_ldMemVx_cases x s t h
    · exact .inl (by constructor <;> simp [writtenParts])
    · exact .inr (faults_outOfBounds _ s)
  case ldVxMem x =>
    obtain ⟨-, rfl⟩ | ⟨-, rfl⟩ := exec_ldVxMem_cases x s t h
    · exact .inl (by constructor <;> simp [writtenParts])
    · exact .inr (faults_outOfBounds _ s)
  case ldVxK x =>
    obtain ⟨c, -, rfl⟩ | ⟨-, rfl⟩ := exec_ldVxK_cases x s t h
    all_goals exact .inl (by constructor <;> simp [writtenParts])
  all_goals
    obtain rfl := Host.Outcome.next.inj h
    exact .inl (by constructor <;> simp [writtenParts])

/-! ### The instructions that write each part -/

theorem writes_fb (i : Instr) (h : Part.fb ∈ writtenParts i) : i = .cls ∨ ∃ x y n, i = .drw x y n := by
  cases i <;> simp [writtenParts] at h ⊢

theorem writes_stack (i : Instr) (h : Part.stack ∈ writtenParts i) : i = .ret ∨ ∃ nnn, i = .call nnn := by
  cases i <;> simp [writtenParts] at h ⊢

theorem writes_mem (i : Instr) (h : Part.mem ∈ writtenParts i) : ∃ x, i = .ldBVx x ∨ i = .ldMemVx x := by
  cases i <;> simp [writtenParts] at h ⊢

theorem writes_i (i : Instr) (h : Part.i ∈ writtenParts i) :
    (∃ nnn, i = .ldI nnn) ∨ ∃ x, i = .addIVx x ∨ i = .ldFVx x ∨ i = .ldMemVx x ∨ i = .ldVxMem x := by
  cases i <;> simp [writtenParts] at h ⊢

theorem writes_dt (i : Instr) (h : Part.dt ∈ writtenParts i) : ∃ x, i = .ldDtVx x := by
  cases i <;> simp [writtenParts] at h ⊢

theorem writes_st (i : Instr) (h : Part.st ∈ writtenParts i) : ∃ x, i = .ldStVx x := by
  cases i <;> simp [writtenParts] at h ⊢

theorem writes_pc (i : Instr) (h : Part.pc ∈ writtenParts i) :
    i = .ret ∨ (∃ nnn, i = .jp nnn ∨ i = .call nnn ∨ i = .jpV0 nnn) ∨
    (∃ x nn, i = .seByte x nn ∨ i = .sneByte x nn) ∨
    (∃ x y, i = .seReg x y ∨ i = .sneReg x y) ∨ ∃ x, i = .skp x ∨ i = .sknp x := by
  cases i <;> simp [writtenParts] at h ⊢

/-- Settles O14: an instruction that completes changes its own parts only, and one that faults only run and PC. -/
theorem eachPartIsWrittenByItsOwnInstructions : Obligations.EachPartIsWrittenByItsOwnInstructions := by
  intro i s t h
  obtain hc | ⟨e, rfl, -⟩ := exec_completes_or_faults i s t h
  · exact ⟨fun hne => writes_fb i (hc.fb hne), fun hne => writes_stack i (hc.stack hne),
      fun hne => writes_mem i (hc.mem hne), fun hne => writes_i i (hc.i hne), fun hne => writes_dt i (hc.dt hne),
      fun hne => writes_st i (hc.st hne), hc.keys, hc.cfg, hc.schedule, fun hne _ => writes_pc i (hc.pc hne)⟩
  · simp

/-! ### What an instruction does to memory, the stack and PC -/

/-- Memory after an instruction is as it was, or has one block written within its bounds (R65). -/
theorem exec_mem_cases (i : Instr) (s t : State) (h : exec i s = .next t) :
    t.mem = s.mem ∨ ∃ a bs, a + bs.length ≤ memSize ∧ t.mem = s.mem.writeBytes a bs := by
  obtain hc | ⟨e, rfl, -⟩ := exec_completes_or_faults i s t h
  · by_cases hne : t.mem = s.mem
    · exact .inl hne
    obtain ⟨x, rfl | rfl⟩ := writes_mem i (hc.mem hne)
    · obtain ⟨hr, rfl⟩ | ⟨-, rfl⟩ := exec_ldBVx_cases x s t h
      · exact .inr ⟨_, _, hr, rfl⟩
      · exact .inl rfl
    · obtain ⟨hr, rfl⟩ | ⟨-, rfl⟩ := exec_ldMemVx_cases x s t h
      · exact .inr ⟨s.i.toNat, s.regsUpTo x, by rwa [regsUpTo_length], by simp⟩
      · exact .inl rfl
  · exact .inl rfl

/-- The stack after an instruction is as it was, or has lost its top, or holds PC above what it held, and then there
was room (R33, R66, R67). -/
theorem exec_stack_cases (i : Instr) (s t : State) (h : exec i s = .next t) :
    t.stack = s.stack ∨ (∃ a, s.stack = t.stack ++ [a]) ∨
    (s.cfg.stackDepth ≠ some s.stack.length ∧ t.stack = s.stack ++ [s.pc]) := by
  obtain hc | ⟨e, rfl, -⟩ := exec_completes_or_faults i s t h
  · by_cases hne : t.stack = s.stack
    · exact .inl hne
    obtain rfl | ⟨n, rfl⟩ := writes_stack i (hc.stack hne)
    · obtain ⟨l, a, hs, rfl⟩ | ⟨-, rfl⟩ := exec_ret_cases s t h
      · exact .inr (.inl ⟨a, hs⟩)
      · exact .inl rfl
    · obtain ⟨hd, rfl⟩ | ⟨-, rfl⟩ := exec_call_cases n s t h
      · exact .inr (.inr ⟨hd, rfl⟩)
      · exact .inl rfl
  · exact .inl rfl

theorem exec_cfg (i : Instr) (s t : State) (h : exec i s = .next t) : t.cfg = s.cfg := by
  obtain hc | ⟨e, rfl, -⟩ := exec_completes_or_faults i s t h
  exacts [hc.cfg, rfl]

theorem zextAddr_le (nnn : Addr) : (zextAddr nnn).toNat ≤ 0x10FE := by
  have := nnn.isLt
  rw [zextAddr_toNat]; omega

theorem skipIf_pc_le (s : State) (c : Bool) (h : s.pc.toNat ≤ 0x1000) : (s.skipIf c).pc.toNat ≤ 0x10FE := by
  rw [skipIf_toNat]
  split <;> omega

theorem jumpV0Target_le (s : State) (nnn : Addr) : (s.jumpV0Target nnn).toNat ≤ 0x10FE := by
  have := (s.reg 0).isLt
  have := nnn.isLt
  rw [jumpV0Target_toNat]; omega

/-- An instruction of a core that holds return addresses in range leaves PC at 0x10FE or below: the furthest it gets
is by JP V0, 0xFF + 0xFFF (R28). -/
theorem exec_pc_le (i : Instr) (s t : State) (h : exec i s = .next t) (hlo : 2 ≤ s.pc.toNat) (hhi : s.pc.toNat ≤ 0x1000)
    (hret : ∀ a ∈ s.stack, a.toNat ≤ 0x1000) : t.pc.toNat ≤ 0x10FE := by
  obtain hc | ⟨e, rfl, -⟩ := exec_completes_or_faults i s t h
  · by_cases hne : t.pc = s.pc
    · rw [hne]; omega
    obtain rfl | ⟨n, rfl | rfl | rfl⟩ | ⟨x, n, rfl | rfl⟩ | ⟨x, y, rfl | rfl⟩ | ⟨x, rfl | rfl⟩ := writes_pc i (hc.pc hne)
    · obtain ⟨l, a, hs, rfl⟩ | ⟨-, rfl⟩ := exec_ret_cases s t h
      · exact (hret a (by simp [hs])).trans (by decide)
      · rw [takeFault_pc]; bv_omega
    · obtain rfl := Host.Outcome.next.inj h
      exact zextAddr_le n
    · obtain ⟨-, rfl⟩ | ⟨-, rfl⟩ := exec_call_cases n s t h
      · exact zextAddr_le n
      · rw [takeFault_pc]; bv_omega
    · obtain rfl := Host.Outcome.next.inj h
      exact jumpV0Target_le s n
    all_goals
      obtain rfl := Host.Outcome.next.inj h
      exact skipIf_pc_le s _ hhi
  · rw [takeFault_pc]; bv_omega

/-! ### The invariant -/

/-- The invariant speaks of the parameters, memory, PC, the stack and run only. -/
theorem Inv.congr {s t : State} (hi : Inv s) (hcfg : t.cfg = s.cfg) (hmem : t.mem = s.mem) (hpc : t.pc = s.pc)
    (hstack : t.stack = s.stack) (hrun : t.run = s.run) : Inv t where
  config := hcfg ▸ hi.config
  memory := hmem ▸ hi.memory
  pcBound := hpc ▸ hi.pcBound
  returns := hstack ▸ hi.returns
  depth := hcfg ▸ hstack ▸ hi.depth
  record := hcfg ▸ hpc ▸ hrun ▸ hi.record

/-- A core that is RUNNING or waits for a key has no fault record to account for. -/
theorem record_of_not_faulted {s : State} (h : s.run = .running ∨ ∃ x, s.run = .waitKey x) :
    ∀ info, s.run = .faulted info → info.pc = s.pc ∧ info.Legal s.cfg := by
  obtain h | ⟨x, h⟩ := h <;> simp [h]

/-- A fault with a legal record keeps the invariant (R31, R272). -/
theorem takeFault_keeps_inv {s : State} (hi : Inv s) (e : Raise) (p : Word) (w : Option Word) (hp : p.toNat ≤ 0x10FE)
    (hl : FaultInfo.Legal s.cfg ⟨e.kind, p, w, e.addr⟩) : Inv (takeFault e p w s) where
  config := hi.config
  memory := hi.memory
  pcBound := hp
  returns := hi.returns
  depth := hi.depth
  record := by
    rintro info h
    obtain rfl := RunState.faulted.inj h
    exact ⟨rfl, hl⟩

/-- The values of R51's table meet the invariant, for any parameters within R6 and any canonical memory. -/
theorem inv_of_reset_values {s : State} (hcfg : s.cfg.wf = true) (hmem : s.mem.wf = true) (hpc : s.pc = 0x0200#16)
    (hstack : s.stack = []) (hrun : s.run = .running) : Inv s where
  config := hcfg
  memory := hmem
  pcBound := by rw [hpc]; decide
  returns := by simp [hstack]
  depth := by simp [hstack]
  record := record_of_not_faulted (.inl hrun)

/-- Settles O15: the reset state has the values of R51's table, in the default configuration. -/
theorem invariantHoldsAtReset : Obligations.InvariantHoldsAtReset :=
  inv_of_reset_values (by decide) rfl rfl rfl rfl

/-- The execute phase of an instruction keeps the invariant: PC is there between 0x0002 and 0x1000 (R28, R34). -/
theorem exec_keeps_inv (i : Instr) (s t : State) (hi : Inv s) (hrun : s.run = .running) (hlo : 2 ≤ s.pc.toNat)
    (hhi : s.pc.toNat ≤ 0x1000) (h : exec i s = .next t) : Inv t := by
  have hpc : t.pc.toNat ≤ 0x10FE := exec_pc_le i s t h hlo hhi fun a ha => (hi.returns a ha).2
  have hcfg := exec_cfg i s t h
  constructor
  case config => exact hcfg ▸ hi.config
  case pcBound => exact hpc
  case memory =>
    obtain hm | ⟨a, bs, hb, hm⟩ := exec_mem_cases i s t h
    · exact hm ▸ hi.memory
    · exact hm ▸ Memory.writeBytes_wf bs s.mem a hi.memory hb
  case returns =>
    intro r hr
    obtain hs | ⟨a, hs⟩ | ⟨-, hs⟩ := exec_stack_cases i s t h
    · exact hi.returns r (hs ▸ hr)
    · exact hi.returns r (hs ▸ List.mem_append_left [a] hr)
    · rw [hs, List.mem_append, List.mem_singleton] at hr
      obtain hr | rfl := hr
      exacts [hi.returns r hr, ⟨hlo, hhi⟩]
  case depth =>
    intro d hd
    rw [hcfg] at hd
    have hle := hi.depth d hd
    obtain hs | ⟨a, hs⟩ | ⟨hroom, hs⟩ := exec_stack_cases i s t h
    · rwa [hs]
    · rw [hs, List.length_append] at hle
      omega
    · have hne : s.stack.length ≠ d := fun e => hroom (e ▸ hd)
      rw [hs, List.length_append, List.length_singleton]
      omega
  case record =>
    obtain hc | ⟨e, rfl, hl⟩ := exec_completes_or_faults i s t h
    · exact record_of_not_faulted (hrun ▸ hc.run.imp_right And.right)
    · exact (takeFault_keeps_inv hi e _ _ hpc hl).record

theorem runCycle_keeps_inv (s t : State) (hi : Inv s) (hrun : s.run = .running) (h : runCycle s = .next t) : Inv t := by
  obtain ⟨-, h'⟩ | ⟨hpc, w, -, ⟨e, hd, h'⟩ | ⟨i, -, h'⟩⟩ := runCycle_cases s <;> rw [h'] at h
  · obtain rfl := Host.Outcome.next.inj h
    exact takeFault_keeps_inv hi _ _ _ hi.pcBound ⟨_, rfl, Nat.le_max_right _ _⟩
  · obtain rfl := Host.Outcome.next.inj h
    exact takeFault_keeps_inv hi _ _ _ hi.pcBound ⟨rfl, w, rfl, by simp [hd]⟩
  · simp only [memSize] at hpc
    have hadd : (s.pc + 2#16).toNat = s.pc.toNat + 2 := by bv_omega
    refine exec_keeps_inv i (s.setPc (s.pc + 2#16)) t ?_ hrun ?_ ?_ h
    · exact ⟨hi.config, hi.memory, by rw [setPc_pc]; omega, hi.returns, hi.depth, record_of_not_faulted (.inl hrun)⟩
    all_goals rw [setPc_pc]; omega

theorem executeCycle_keeps_inv (s t : State) (hi : Inv s) (h : executeCycle s = .next t) : Inv t := by
  cases hr : s.run with
  | faulted info =>
    rw [executeCycle_faulted s info hr] at h
    exact Host.Outcome.next.inj h ▸ hi
  | waitKey x =>
    rw [executeCycle_waitKey s x hr] at h
    obtain rfl := Host.Outcome.next.inj h
    obtain ⟨-, hw⟩ | ⟨c, -, hw⟩ := resumeWait_cases x s <;> rw [hw]
    · exact hi
    · exact ⟨hi.config, hi.memory, hi.pcBound, hi.returns, hi.depth, record_of_not_faulted (.inl rfl)⟩
  | running =>
    rw [executeCycle_running s hr] at h
    exact runCycle_keeps_inv s t hi hr h

theorem resetRom_keeps_inv (rom : List Byte) (s : State) (hi : Inv s) : Inv ((resetRom rom s).getD s) := by
  by_cases hl : rom.length ≤ romMax
  · rw [resetRom_ok rom s hl]
    exact inv_of_reset_values hi.config (resetMem_wf s.cfg rom hi.config hl) rfl rfl rfl
  · rw [resetRom_refused rom s hl]
    exact hi

theorem deliver_keeps_inv (e : Event) (s t : State) (hi : Inv s) (h : deliver e s = .next t) : Inv t := by
  cases e
  case cycle => exact executeCycle_keeps_inv s t hi h
  all_goals obtain rfl := Host.Outcome.next.inj h
  case reset rom => exact resetRom_keeps_inv rom s hi
  all_goals exact hi.congr rfl rfl rfl rfl rfl

/-- Settles O16: a step is a cycle or an event, and each keeps the invariant. -/
theorem everyStepKeepsTheInvariant : Obligations.EveryStepKeepsTheInvariant := by
  intro s t hi h
  cases hs : s.schedule with
  | nil =>
    rw [step_idle s hs] at h
    exact executeCycle_keeps_inv s t hi h
  | cons e rest =>
    rw [step_scheduled s e rest hs] at h
    exact deliver_keeps_inv e (s.setSchedule rest) t (hi.congr rfl rfl rfl rfl rfl) h

/-! ### No program observes ST -/

theorem exec_ldVxK_key (x : Reg) (s : State) (c : Reg) (h : lowestKey s.keys = some c) :
    exec (.ldVxK x) s = .next (s.setReg x (keyByte c)) := by
  show execLdVxK x s = _
  rw [execLdVxK, h]

theorem exec_ldVxK_wait (x : Reg) (s : State) (h : lowestKey s.keys = none) :
    exec (.ldVxK x) s = .next (s.setRun (.waitKey x)) := by
  show execLdVxK x s = _
  rw [execLdVxK, h]

theorem runCycle_fetchFault (s : State) (h : memSize ≤ s.pc.toNat + 1) :
    runCycle s = .next (takeFault (.outOfBounds (max s.pc.toNat memSize)) s.pc none s) := by
  rw [runCycle, fetch_error s h]

theorem runCycle_decodeError (s : State) (w : Word) (e : Reject) (hw : fetch s = .ok w) (hd : decode w = .error e) :
    runCycle s = .next (takeFault .decodeError s.pc (some w) s) := by
  rw [runCycle, hw]
  simp only [hd]

theorem runCycle_executes (s : State) (w : Word) (i : Instr) (hw : fetch s = .ok w) (hd : decode w = .ok i) :
    runCycle s = exec i (s.setPc (s.pc + 2#16)) := by
  rw [runCycle, hw]
  simp only [hd]

theorem skipIf_setSt (s : State) (b : Byte) (c : Bool) : (s.setSt b).skipIf c = (s.skipIf c).setSt b := by
  cases c <;> rfl

theorem advanceI_setSt (s : State) (b : Byte) (n : Nat) : (s.setSt b).advanceI n = (s.advanceI n).setSt b := by
  unfold State.advanceI
  rw [setSt_cfg]
  cases s.cfg.lsAdvanceI <;> rfl

/-- A change of ST before an instruction is one after it: only FX18 writes ST, and nothing reads it (R37). -/
theorem exec_setSt (i : Instr) (s t : State) (b : Byte) (h : exec i s = .next t) :
    ∃ c, exec i (s.setSt b) = .next (t.setSt c) := by
  cases i
  case ret =>
    obtain ⟨l, a, hs, rfl⟩ | ⟨hs, rfl⟩ := exec_ret_cases s t h
    exacts [⟨b, exec_ret_ok (s.setSt b) l a hs⟩, ⟨b, exec_ret_error (s.setSt b) hs⟩]
  case call n =>
    obtain ⟨hd, rfl⟩ | ⟨hd, rfl⟩ := exec_call_cases n s t h
    exacts [⟨b, exec_call_ok n (s.setSt b) hd⟩, ⟨b, exec_call_error n (s.setSt b) hd⟩]
  case drw x y n =>
    obtain ⟨hr, rfl⟩ | ⟨hn, hr, rfl⟩ := exec_drw_cases x y n s t h
    exacts [⟨b, exec_drw_ok x y n (s.setSt b) hr⟩, ⟨b, exec_drw_error x y n (s.setSt b) hn hr⟩]
  case ldBVx x =>
    obtain ⟨hr, rfl⟩ | ⟨hr, rfl⟩ := exec_ldBVx_cases x s t h
    exacts [⟨b, exec_ldBVx_ok x (s.setSt b) hr⟩, ⟨b, exec_ldBVx_error x (s.setSt b) hr⟩]
  case ldMemVx x =>
    obtain ⟨hr, rfl⟩ | ⟨hr, rfl⟩ := exec_ldMemVx_cases x s t h
    · exact ⟨b, by rw [exec_ldMemVx_ok x (s.setSt b) hr, ← advanceI_setSt]; rfl⟩
    · exact ⟨b, exec_ldMemVx_error x (s.setSt b) hr⟩
  case ldVxMem x =>
    obtain ⟨hr, rfl⟩ | ⟨hr, rfl⟩ := exec_ldVxMem_cases x s t h
    · exact ⟨b, by rw [exec_ldVxMem_ok x (s.setSt b) hr, ← advanceI_setSt]; rfl⟩
    · exact ⟨b, exec_ldVxMem_error x (s.setSt b) hr⟩
  case ldVxK x =>
    obtain ⟨c, hk, rfl⟩ | ⟨hk, rfl⟩ := exec_ldVxK_cases x s t h
    exacts [⟨b, exec_ldVxK_key x (s.setSt b) c hk⟩, ⟨b, exec_ldVxK_wait x (s.setSt b) hk⟩]
  all_goals obtain rfl := Host.Outcome.next.inj h
  case ldStVx x => exact ⟨s.reg x, rfl⟩
  case seByte | sneByte | seReg | sneReg | skp | sknp => exact ⟨b, congrArg _ (skipIf_setSt s b _)⟩
  all_goals exact ⟨b, rfl⟩

theorem runCycle_setSt (s t : State) (b : Byte) (h : runCycle s = .next t) :
    ∃ c, runCycle (s.setSt b) = .next (t.setSt c) := by
  have hf : fetch (s.setSt b) = fetch s := rfl
  obtain ⟨hpc, h'⟩ | ⟨-, w, hw, ⟨e, hd, h'⟩ | ⟨i, hd, h'⟩⟩ := runCycle_cases s <;> rw [h'] at h
  · obtain rfl := Host.Outcome.next.inj h
    exact ⟨b, runCycle_fetchFault (s.setSt b) hpc⟩
  · obtain rfl := Host.Outcome.next.inj h
    exact ⟨b, runCycle_decodeError (s.setSt b) w e (hf.trans hw) hd⟩
  · obtain ⟨c, hc⟩ := exec_setSt i _ t b h
    exact ⟨c, (runCycle_executes (s.setSt b) w i (hf.trans hw) hd).trans hc⟩

theorem resumeWait_setSt (x : Reg) (s : State) (b : Byte) : resumeWait x (s.setSt b) = (resumeWait x s).setSt b := by
  unfold resumeWait
  rw [setSt_keys]
  cases lowestKey s.keys <;> rfl

theorem executeCycle_setSt (s t : State) (b : Byte) (h : executeCycle s = .next t) :
    ∃ c, executeCycle (s.setSt b) = .next (t.setSt c) := by
  cases hr : s.run with
  | faulted info =>
    rw [executeCycle_faulted s info hr] at h
    obtain rfl := Host.Outcome.next.inj h
    exact ⟨b, executeCycle_faulted (s.setSt b) info hr⟩
  | waitKey x =>
    rw [executeCycle_waitKey s x hr] at h
    obtain rfl := Host.Outcome.next.inj h
    exact ⟨b, (executeCycle_waitKey (s.setSt b) x hr).trans (congrArg _ (resumeWait_setSt x s b))⟩
  | running =>
    rw [executeCycle_running s hr] at h
    obtain ⟨c, hc⟩ := runCycle_setSt s t b h
    exact ⟨c, (executeCycle_running (s.setSt b) hr).trans hc⟩

/-- A reset that loads leaves ST at 0 whatever it was, and one that is refused leaves it as it was. -/
theorem resetRom_setSt (rom : List Byte) (s : State) (b : Byte) :
    ∃ c, (resetRom rom (s.setSt b)).getD (s.setSt b) = ((resetRom rom s).getD s).setSt c := by
  by_cases hl : rom.length ≤ romMax
  · exact ⟨0x00#8, by rw [resetRom_ok _ _ hl, resetRom_ok _ _ hl]; rfl⟩
  · exact ⟨b, by rw [resetRom_refused _ _ hl, resetRom_refused _ _ hl]; rfl⟩

theorem deliver_setSt (e : Event) (s t : State) (b : Byte) (h : deliver e s = .next t) :
    ∃ c, deliver e (s.setSt b) = .next (t.setSt c) := by
  cases e
  case cycle => exact executeCycle_setSt s t b h
  all_goals obtain rfl := Host.Outcome.next.inj h
  case reset rom =>
    obtain ⟨c, hc⟩ := resetRom_setSt rom s b
    exact ⟨c, congrArg _ hc⟩
  case tickSt => exact ⟨tick b, rfl⟩
  case stClear => exact ⟨0x00#8, rfl⟩
  all_goals exact ⟨b, rfl⟩

/-- Settles O17: ST is an input of no cycle and of no event but those that write ST. -/
theorem soundTimerIsInvisibleToPrograms : Obligations.SoundTimerIsInvisibleToPrograms := by
  intro s t b h
  show ∃ c, step (s.setSt b) = .next (t.setSt c)
  cases hs : s.schedule with
  | nil =>
    rw [step_idle s hs] at h
    rw [step_idle (s.setSt b) hs]
    exact executeCycle_setSt s t b h
  | cons e rest =>
    rw [step_scheduled s e rest hs] at h
    rw [step_scheduled (s.setSt b) e rest hs]
    exact deliver_setSt e (s.setSchedule rest) t b h

/-! ### The registers an instruction names (R21) -/

theorem setReg_changes {s : State} {x r : Reg} {b : Byte} (h : (s.setReg x b).reg r ≠ s.reg r) : r = x := by
  by_contra hne
  exact h (setReg_reg_ne s x r b hne)

theorem setRegFlag_changes {s : State} {x r : Reg} {b : Byte} {c : Bool} (h : (s.setRegFlag x b c).reg r ≠ s.reg r) :
    r = x ∨ r = Reg.vf := by
  by_contra hne
  obtain ⟨hx, hf⟩ := not_or.1 hne
  exact h (setRegFlag_reg_other s x r b c hx hf)

theorem setRegs_changes {s : State} {bs : List Byte} {r : Reg} (h : (s.setRegs bs).reg r ≠ s.reg r) :
    r.val < bs.length := by
  by_contra hge
  exact h (by rw [setRegs_reg, List.getElem?_eq_none (by omega)]; rfl)

/-- Settles O13: a completed instruction writes Vx, Vx and VF, or a block from V0, and a fault writes no register. -/
theorem onlyNamedRegistersAreWritten : Obligations.OnlyNamedRegistersAreWritten := by
  intro i s t r h hne
  cases i
  case ret => obtain ⟨l, a, -, rfl⟩ | ⟨-, rfl⟩ := exec_ret_cases s t h <;> exact hne rfl
  case call n => obtain ⟨-, rfl⟩ | ⟨-, rfl⟩ := exec_call_cases n s t h <;> exact hne rfl
  case ldBVx x => obtain ⟨-, rfl⟩ | ⟨-, rfl⟩ := exec_ldBVx_cases x s t h <;> exact hne rfl
  case ldMemVx x => obtain ⟨-, rfl⟩ | ⟨-, rfl⟩ := exec_ldMemVx_cases x s t h <;> exact hne (by simp)
  case drw x y n =>
    obtain ⟨-, rfl⟩ | ⟨-, -, rfl⟩ := exec_drw_cases x y n s t h
    · exact setReg_changes (s := s.setFb _) hne
    · exact absurd rfl hne
  case ldVxMem x =>
    obtain ⟨-, rfl⟩ | ⟨-, rfl⟩ := exec_ldVxMem_cases x s t h
    · rw [advanceI_reg] at hne
      have := setRegs_changes hne
      rw [Memory.block_length] at this
      exact Nat.le_of_lt_succ this
    · exact absurd rfl hne
  case ldVxK x =>
    obtain ⟨c, -, rfl⟩ | ⟨-, rfl⟩ := exec_ldVxK_cases x s t h
    exacts [setReg_changes hne, absurd rfl hne]
  all_goals obtain rfl := Host.Outcome.next.inj h
  case ldByte | addByte | ldReg | ldVxDt => exact setReg_changes hne
  case rnd => exact setReg_changes (s := s.afterDraw) hne
  case orReg | andReg | xorReg | addReg | subReg | shr | subn | shl => exact setRegFlag_changes hne
  all_goals exact hne (by simp)

/-! ### Canonical memory (log entry 6) -/

/-- Of two canonical lists that read the same, neither begins before the other: the byte there is not zero in one and
unlisted in the other. -/
theorem Memory.head_le_of_read_eq {a b lo : Nat} {v w : Byte} {m m' : Memory} (hm : Memory.wfFrom lo ((a, v) :: m) = true)
    (hm' : Memory.wfFrom lo ((b, w) :: m') = true) (h : ∀ k, Memory.read ((a, v) :: m) k = Memory.read ((b, w) :: m') k) :
    b ≤ a := by
  obtain ⟨-, -, hv, -⟩ := (Memory.wfFrom_cons lo a v m).1 hm
  obtain ⟨-, hb, hw, hrest⟩ := (Memory.wfFrom_cons lo b w m').1 hm'
  by_contra hlt
  have hzero : Memory.read ((b, w) :: m') a = 0x00#8 :=
    Memory.read_below _ b a ((Memory.wfFrom_cons b b w m').2 ⟨le_rfl, hb, hw, hrest⟩) (by omega)
  rw [← h a, Memory.read_cons, if_pos rfl] at hzero
  exact hv hzero

/-- A canonical memory with a listed cell does not read zero everywhere. -/
theorem Memory.cons_read_ne_nil {a lo : Nat} {v : Byte} {m : Memory} (hm : Memory.wfFrom lo ((a, v) :: m) = true) :
    ¬ ∀ k, Memory.read ((a, v) :: m) k = Memory.read [] k := by
  obtain ⟨-, -, hv, -⟩ := (Memory.wfFrom_cons lo a v m).1 hm
  intro h
  have := h a
  rw [Memory.read_cons, if_pos rfl, Memory.read_nil] at this
  exact hv this

theorem Memory.ext_of_wfFrom (m m' : Memory) (lo : Nat) (hm : m.wfFrom lo = true) (hm' : m'.wfFrom lo = true)
    (h : ∀ k, m.read k = m'.read k) : m = m' := by
  induction m generalizing m' lo with
  | nil =>
    cases m' with
    | nil => rfl
    | cons c m' => exact absurd (fun k => (h k).symm) (Memory.cons_read_ne_nil hm')
  | cons c m ih =>
    obtain ⟨a, v⟩ := c
    cases m' with
    | nil => exact absurd h (Memory.cons_read_ne_nil hm)
    | cons c' m' =>
      obtain ⟨b, w⟩ := c'
      obtain rfl : a = b :=
        Nat.le_antisymm (Memory.head_le_of_read_eq hm' hm fun k => (h k).symm) (Memory.head_le_of_read_eq hm hm' h)
      obtain rfl : v = w := by simpa [Memory.read_cons] using h a
      obtain ⟨-, -, -, hrest⟩ := (Memory.wfFrom_cons lo a v m).1 hm
      obtain ⟨-, -, -, hrest'⟩ := (Memory.wfFrom_cons lo a v m').1 hm'
      have htail (k : Nat) : Memory.read m k = Memory.read m' k := by
        by_cases hk : k = a
        · rw [hk, Memory.read_below m (a + 1) a hrest (by omega), Memory.read_below m' (a + 1) a hrest' (by omega)]
        · simpa [Memory.read_cons, hk] using h k
      rw [ih m' (a + 1) hrest hrest' htail]

/-- Settles O19, by induction on the list. -/
theorem canonicalMemoriesAreDeterminedByTheirBytes : Obligations.CanonicalMemoriesAreDeterminedByTheirBytes :=
  fun m m' hm hm' h => Memory.ext_of_wfFrom m m' 0 hm hm' h

/-! ### Reset (R51, R310) -/

theorem deliver_reset_ok (rom : List Byte) (s : State) (h : rom.length ≤ romMax) :
    deliver (.reset rom) s = .next { State.reset with
      mem := resetMem s.cfg rom, cfg := s.cfg, schedule := s.schedule, rand := s.rand, draws := s.draws } := by
  rw [deliver, resetRom_ok rom s h]
  rfl

theorem reset_reg (r : Reg) : State.reset.reg r = 0x00#8 := Vector.getElem_replicate r.isLt

/-- Settles O54: the registers are those of State.reset, and memory is what resetMem leaves. -/
theorem resetLoadsTheRom : Obligations.ResetLoadsTheRom := by
  intro rom s hc hl
  refine ⟨_, deliver_reset_ok rom s hl, reset_reg, rfl, rfl, rfl, rfl, rfl, rfl, rfl, rfl, rfl, ?_, ?_, rfl⟩
  · intro a ha _
    exact (resetMem_read s.cfg rom a hc hl).trans (if_pos ha)
  · intro a ha
    exact (resetMem_read s.cfg rom a hc hl).trans (if_neg (Nat.not_le.2 ha))

/-- Settles O12: a cycle changes nothing, and of the other events only a reset writes run. -/
theorem onlyResetLeavesFaulted : Obligations.OnlyResetLeavesFaulted := by
  intro s info hrun
  refine ⟨executeCycle_faulted s info hrun, ?_, fun rom hl => ⟨_, deliver_reset_ok rom s hl, rfl⟩⟩
  intro e t h hne
  cases e
  case cycle =>
    replace h : executeCycle s = .next t := h
    rw [executeCycle_faulted s info hrun] at h
    exact Host.Outcome.next.inj h ▸ hrun
  case reset rom => exact absurd rfl (hne rom)
  all_goals
    obtain rfl := Host.Outcome.next.inj h
    exact hrun

theorem resetRom_environment (rom : List Byte) (s : State) :
    ((resetRom rom s).getD s).schedule = s.schedule ∧ ((resetRom rom s).getD s).rand = s.rand ∧
      ((resetRom rom s).getD s).draws = s.draws := by
  by_cases hl : rom.length ≤ romMax
  · rw [resetRom_ok rom s hl]
    exact ⟨rfl, rfl, rfl⟩
  · rw [resetRom_refused rom s hl]
    exact ⟨rfl, rfl, rfl⟩

/-- From reset, the first cycle fetches the zero word at 0x200, a SYS. -/
theorem step_reset : step State.reset = exec (.sys 0) { State.reset with pc := 0x0202#16 } := by
  rw [step_idle _ rfl, executeCycle_running _ rfl, runCycle, fetch_ok _ (by decide)]
  rfl

/-- Settles O56: by evaluation of the reset and of the first fetch. -/
theorem resetStateIsResetWithoutRom : Obligations.ResetStateIsResetWithoutRom := by
  refine ⟨rfl, fun a => Memory.read_nil a, step_reset, ?_⟩
  intro rom s t h
  obtain rfl := Host.Outcome.next.inj h
  exact resetRom_environment rom s

/-! ### The host's events and outputs (R44-R47, R50) -/

/-- Settles O50, by what pressKey and releaseKey leave of each key. -/
theorem keyEventsSetAndClearTheirKey : Obligations.KeyEventsSetAndClearTheirKey := by
  intro c s
  refine ⟨⟨_, rfl, fun d hd => ?_, by simp [SameBut]⟩, ⟨_, rfl, fun d hd => ?_, by simp [SameBut]⟩, fun hc => ⟨?_, ?_⟩⟩
  · refine (keyPressed_pressKey s.keys c d hd).trans ?_
    by_cases hdc : d = c <;> simp [hdc, keyPressed]
  · refine (keyPressed_releaseKey s.keys c d hd).trans ?_
    by_cases hdc : d = c <;> simp [hdc, keyPressed]
  · have hk : pressKey s.keys c = s.keys := if_neg (by omega)
    rw [deliver, hk]; rfl
  · have hk : releaseKey s.keys c = s.keys := if_neg (by omega)
    rw [deliver, hk]; rfl

theorem frame_get (s : State) (k : Nat) (hk : k < 2048) : s.frame[k]? = some (pix s.fb k) := by
  simp [State.frame, hk]

theorem soundOn_iff (s : State) : s.soundOn = true ↔ s.st.toNat ≠ 0 := by
  rw [State.soundOn, bne_iff_ne, ne_eq, BitVec.toNat_eq]
  rfl

/-- Settles O51. The three clauses on the status are its three run states. -/
theorem outputsReadTheState : Obligations.OutputsReadTheState := by
  intro s
  refine ⟨by simp [State.frame], fun row col hrow hcol => frame_get s _ (by omega), soundOn_iff s, ?_, ?_, ?_⟩
  · intro h
    rw [State.status, h]
  · intro x h
    rw [State.status, h]
  · intro info h
    rw [State.status, h]

/-- Settles O52: on an empty input the byte is the first of the queue, and the draw takes it off. -/
theorem randomByteFeedsTheNextDraw : Obligations.RandomByteFeedsTheNextDraw := by
  intro b x nn s hs
  refine ⟨_, rfl, by simp [SameBut], _, rfl, ?_, ?_⟩
  · rw [setReg_reg_same, State.drawByte, setRand_rand, hs]
    rfl
  · simp [hs]

end Sys2Proof.Machine

/-! PROOF. The statements of the memory family (20_memory.md): single reads and writes, that a stored word is seen by
the next fetch, and that whole events interleave in the order of the schedule (R72). -/

namespace Sys2Proof.Machine

/-! ### Reads and writes (R61, R62) -/

theorem Memory.read_write_same (m : Memory) (a : Nat) (v : Byte) (h : m.wf = true) : (m.write a v).read a = v :=
  (m.read_write a a v h).trans (if_pos rfl)

theorem Memory.read_write_ne (m : Memory) (a b : Nat) (v : Byte) (h : m.wf = true) (hne : b ≠ a) :
    (m.write a v).read b = m.read b :=
  (m.read_write a b v h).trans (if_neg hne)

/-- Settles O18: from 4096 on both raise; below, the write is Memory.write, which is canonical and local. -/
theorem memoryReadsAndWrites : Obligations.MemoryReadsAndWrites := by
  intro m a v hm
  refine ⟨fun ha => ⟨memRead_error m a ha, memWrite_error m a v ha⟩, fun ha => ⟨memRead_ok m a ha, ?_⟩⟩
  exact ⟨m.write a v, memWrite_ok m a v ha, m.write_wf a v hm ha, m.read_write_same a v hm,
    fun b hb => m.read_write_ne a b v hm hb⟩

/-! ### A store is seen by the next fetch (R75, R321) -/

/-- After FX55, the byte at I + k is V[k], for each k up to x (R216). -/
theorem read_writeBytes_regsUpTo (s : State) (x k : Reg) (hm : s.mem.wf = true)
    (hr : s.i.toNat + (x.val + 1) ≤ memSize) (hk : k.val ≤ x.val) :
    (s.mem.writeBytes s.i.toNat (s.regsUpTo x)).read (s.i.toNat + k.val) = s.reg k := by
  rw [Memory.read_writeBytes _ _ _ _ hm (by rwa [regsUpTo_length]), if_pos (Nat.le_add_right _ _),
    Nat.add_sub_cancel_left, regsUpTo_get s x k hk]
  rfl

theorem reg_succ_val (k x : Reg) (h : k.val + 1 ≤ x.val) : (k + 1).val = k.val + 1 :=
  Fin.val_add_one_of_lt' (by omega)

/-- A cycle in RUNNING executes what the two bytes at PC decode to (R120, R122). -/
theorem executeCycle_executes (s : State) (i : Instr) (hrun : s.run = .running) (hpc : s.pc.toNat + 1 < memSize)
    (hd : decode (wordOfBytes (s.mem.read s.pc.toNat) (s.mem.read (s.pc.toNat + 1))) = .ok i) :
    executeCycle s = exec i (s.setPc (s.pc + 2#16)) :=
  (executeCycle_running s hrun).trans (runCycle_executes s _ i (fetch_ok s hpc) hd)

/-- Settles O11: FX55 leaves PC and run as they are, and the two bytes at PC are then V[k] and V[k+1]. -/
theorem storeIsSeenByTheNextFetch : Obligations.StoreIsSeenByTheNextFetch := by
  intro s x k j hm hrun hx hk hpc hd
  have hr : s.i.toNat + (x.val + 1) ≤ memSize := hx
  have hk1 := reg_succ_val k x hk
  have hhi := read_writeBytes_regsUpTo s x k hm hr (by omega)
  have hlo := read_writeBytes_regsUpTo s x (k + 1) hm hr (by omega)
  rw [← hpc] at hhi
  rw [hk1, ← Nat.add_assoc, ← hpc] at hlo
  refine ⟨_, exec_ldMemVx_ok x s hr, executeCycle_executes _ j ?_ ?_ ?_⟩
  · simpa using hrun
  · rw [advanceI_pc, setMem_pc]
    omega
  · rw [advanceI_pc, advanceI_mem, setMem_pc, setMem_mem, hhi, hlo, hd]

/-! ### The agents interleave between whole steps (R72, R282, R286) -/

/-- Settles O7, by the two forms of the schedule. -/
theorem stepDeliversTheScheduledEvent : Obligations.StepDeliversTheScheduledEvent :=
  fun s => ⟨step_idle s, step_scheduled s, rfl⟩

/-- One step of an execution, with any further events scheduled after its own. -/
theorem Execution.Follows.step_cons {x : Execution} (h : x.Follows) (k : Nat) (l : List Event) :
    step ((x.state k).setSchedule (x.event k :: l)) = .next ((x.state (k + 1)).setSchedule l) :=
  (step_setSchedule_cons (x.state k) (x.event k) l).trans
    (deliver_setSchedule (x.event k) ((x.state k).setSchedule []) _ l (h.deliver k))

/-- From any point of an execution, its next n events scheduled make step run through its next n states. -/
theorem Execution.Follows.steps_range' {x : Execution} (h : x.Follows) (n k : Nat) :
    steps n ((x.state k).setSchedule ((List.range' k n).map x.event)) = .next ((x.state (k + n)).setSchedule []) := by
  induction n generalizing k with
  | zero => rfl
  | succ n ih =>
    rw [List.range'_succ, List.map_cons, steps_succ _ _ _ (h.step_cons k _), ih (k + 1), Nat.add_right_comm]
    rfl

/-- Settles O57: the events from the start of the execution, by induction on their number from any point of it. -/
theorem everyPrefixOfAnExecutionIsARunOfStep : Obligations.EveryPrefixOfAnExecutionIsARunOfStep := by
  intro x n h
  rw [List.range_eq_range', h.steps_range' n 0, Nat.zero_add]

end Sys2Proof.Machine

/-! PROOF. The statements of the encoding family (30_encoding.md): decoder and encoder are inverse to each other, which
words are illegal, the rows of the opcode table, and the fault of an illegal word. -/

namespace Sys2Proof.Machine

open Sys2Proof.Laws

/-! ### The word of an instruction decodes to it (R92, R94) -/

/-- Settles O2: the round trip of each instruction's own encoding. -/
theorem decodeOfEncodeIsTheInstruction : Obligations.DecodeOfEncodeIsTheInstruction := by
  intro i
  cases i with
  | sys nnn => exact RoundTrip.sys nnn
  | cls => exact RoundTrip.cls
  | ret => exact RoundTrip.ret
  | jp nnn => exact RoundTrip.jp nnn
  | call nnn => exact RoundTrip.call nnn
  | seByte x nn => exact RoundTrip.seByte x nn
  | sneByte x nn => exact RoundTrip.sneByte x nn
  | seReg x y => exact RoundTrip.seReg x y
  | ldByte x nn => exact RoundTrip.ldByte x nn
  | addByte x nn => exact RoundTrip.addByte x nn
  | ldReg x y => exact RoundTrip.ldReg x y
  | orReg x y => exact RoundTrip.orReg x y
  | andReg x y => exact RoundTrip.andReg x y
  | xorReg x y => exact RoundTrip.xorReg x y
  | addReg x y => exact RoundTrip.addReg x y
  | subReg x y => exact RoundTrip.subReg x y
  | shr x y => exact RoundTrip.shr x y
  | subn x y => exact RoundTrip.subn x y
  | shl x y => exact RoundTrip.shl x y
  | sneReg x y => exact RoundTrip.sneReg x y
  | ldI nnn => exact RoundTrip.ldI nnn
  | jpV0 nnn => exact RoundTrip.jpV0 nnn
  | rnd x nn => exact RoundTrip.rnd x nn
  | drw x y n => exact RoundTrip.drw x y n
  | skp x => exact RoundTrip.skp x
  | sknp x => exact RoundTrip.sknp x
  | ldVxDt x => exact RoundTrip.ldVxDt x
  | ldVxK x => exact RoundTrip.ldVxK x
  | ldDtVx x => exact RoundTrip.ldDtVx x
  | ldStVx x => exact RoundTrip.ldStVx x
  | addIVx x => exact RoundTrip.addIVx x
  | ldFVx x => exact RoundTrip.ldFVx x
  | ldBVx x => exact RoundTrip.ldBVx x
  | ldMemVx x => exact RoundTrip.ldMemVx x
  | ldVxMem x => exact RoundTrip.ldVxMem x

/-! ### A word that decodes is the word of its instruction -/

theorem decodeClass0_sys {w : Word} (hcls : w ≠ 0x00E0#16) (hret : w ≠ 0x00EE#16) :
    decodeClass0 w = .sys (fieldNNN w) := by
  rw [decodeClass0, if_neg hcls, if_neg hret]

/-- Class 0: neither the word of CLS nor that of RET is left to SYS. -/
theorem encode_decodeClass0 (w : Word) (hw : formatA 0x0#4 (fieldNNN w) = w) :
    encode (decodeClass0 w) = w ∧ (decodeClass0 w).wf = true := by
  by_cases hcls : w = 0x00E0#16
  · subst hcls; exact ⟨rfl, rfl⟩
  by_cases hret : w = 0x00EE#16
  · subst hret; exact ⟨rfl, rfl⟩
  rw [decodeClass0_sys hcls hret]
  rw [← hw, formatA_eq_cls] at hcls
  rw [← hw, formatA_eq_ret] at hret
  exact ⟨hw, by simp [Instr.wf, hcls, hret]⟩

theorem encode_of_decodeAlu {x y : Reg} {n : Nat} {i : Instr} (h : decodeAlu x y n = .ok i) :
    encode i = formatC 0x8#4 x y (BitVec.ofNat 4 n) ∧ i.wf = true := by
  unfold decodeAlu at h
  split at h <;> cases h <;> exact ⟨rfl, rfl⟩

theorem encode_of_decodeKey {x : Reg} {nn : Nat} {i : Instr} (h : decodeKey x nn = .ok i) :
    encode i = formatB 0xE#4 x (BitVec.ofNat 8 nn) ∧ i.wf = true := by
  unfold decodeKey at h
  split at h <;> cases h <;> exact ⟨rfl, rfl⟩

theorem encode_of_decodeMisc {x : Reg} {nn : Nat} {i : Instr} (h : decodeMisc x nn = .ok i) :
    encode i = formatB 0xF#4 x (BitVec.ofNat 8 nn) ∧ i.wf = true := by
  unfold decodeMisc at h
  split at h <;> cases h <;> exact ⟨rfl, rfl⟩

/-- Settles O3, class by class: w is built from its own fields in the format of its class, and the function digits
that a class decoder answers to are those its instruction is encoded with. -/
theorem encodeOfDecodeIsTheWord : Obligations.EncodeOfDecodeIsTheWord := by
  intro w i h
  have hA : formatA (BitVec.ofNat 4 (fieldOp w).toNat) (fieldNNN w) = w := by simp [formatA_fields]
  have hB : formatB (BitVec.ofNat 4 (fieldOp w).toNat) (fieldX w) (fieldNN w) = w := by simp [formatB_fields]
  have hC : formatC (BitVec.ofNat 4 (fieldOp w).toNat) (fieldX w) (fieldY w) (fieldN w) = w := by simp [formatC_fields]
  have hlt := (fieldOp w).isLt
  unfold decode at h
  generalize (fieldOp w).toNat = op at h hA hB hC hlt
  split at h
  case h_1 => cases h; exact encode_decodeClass0 w hA
  case h_6 | h_10 =>
    split at h
    case isTrue hn => cases h; rw [hn] at hC; exact ⟨hC, rfl⟩
    case isFalse => cases h
  case h_9 => simpa [hC] using encode_of_decodeAlu h
  case h_15 => simpa [hB] using encode_of_decodeKey h
  case h_16 =>
    obtain rfl : op = 15 := by grind
    simpa [hB] using encode_of_decodeMisc h
  case h_2 | h_3 | h_11 | h_12 => cases h; exact ⟨hA, rfl⟩
  case h_4 | h_5 | h_7 | h_8 | h_13 => cases h; exact ⟨hB, rfl⟩
  case h_14 => cases h; exact ⟨hC, rfl⟩

/-! ### The illegal words (R97) -/

theorem decodeAlu_rejects_iff (x y : Reg) (n : Nat) (hn : n < 16) :
    (∀ i, decodeAlu x y n ≠ .ok i) ↔ 8 ≤ n ∧ n ≠ 0xE := by
  unfold decodeAlu
  split
  case h_10 => grind
  all_goals simp

theorem decodeKey_rejects_iff (x : Reg) (nn : Nat) : (∀ i, decodeKey x nn ≠ .ok i) ↔ nn ∉ [0x9E, 0xA1] := by
  unfold decodeKey
  split <;> simp_all

theorem decodeMisc_rejects_iff (x : Reg) (nn : Nat) :
    (∀ i, decodeMisc x nn ≠ .ok i) ↔ nn ∉ [0x07, 0x0A, 0x15, 0x18, 0x1E, 0x29, 0x33, 0x55, 0x65] := by
  unfold decodeMisc
  split <;> simp_all

/-- Settles O4, class by class: only the classes 5, 8, 9, E and F reject, by their function digits. -/
theorem illegalWordsAreExactlyThoseListed : Obligations.IllegalWordsAreExactlyThoseListed := by
  intro w
  have hlt := (fieldOp w).isLt
  rw [← fieldOp_toNat, ← fieldN_toNat, ← fieldNN_toNat]
  unfold decode
  generalize (fieldOp w).toNat = op at hlt
  split
  case h_6 | h_10 => split <;> simp_all [← BitVec.toNat_inj]
  case h_9 => rw [decodeAlu_rejects_iff _ _ _ (fieldN w).isLt]; simp
  case h_15 => rw [decodeKey_rejects_iff]; simp
  case h_16 =>
    obtain rfl : op = 15 := by grind
    rw [decodeMisc_rejects_iff]; simp
  all_goals simp

/-! ### The rows of the opcode table (R96) -/

/-- The mask of a row keeps of an instruction's word the digits that no operand fills. -/
theorem encode_and_mask (i : Instr) : encode i &&& (tableRow i).2 = (tableRow i).1 := by
  cases i <;> simp [encode, tableRow, mask_F000, mask_F00F, mask_F0FF] <;> rfl

/-- What a row of mask 0xF000 selects by: the class. -/
theorem fieldOp_of_mask_F000 {w m : Word} (h : w &&& 0xF000#16 = m) : fieldOp w = fieldOp m := by
  simp [← h, mask_F000]

/-- What a row of mask 0xF00F selects by: the class and N. -/
theorem fields_of_mask_F00F {w m : Word} (h : w &&& 0xF00F#16 = m) : fieldOp w = fieldOp m ∧ fieldN w = fieldN m := by
  simp [← h, mask_F00F]

/-- What a row of mask 0xF0FF selects by: the class and NN. -/
theorem fields_of_mask_F0FF {w m : Word} (h : w &&& 0xF0FF#16 = m) : fieldOp w = fieldOp m ∧ fieldNN w = fieldNN m := by
  simp [← h, mask_F0FF]

/-- Settles O5: the word of an instruction agrees with its row; and what the mask of a row keeps decides, with its value
in the row, the branch that the decoder takes. -/
theorem rowsAreSelectedByMaskAndMatch : Obligations.RowsAreSelectedByMaskAndMatch := by
  intro w i
  constructor
  · intro h
    obtain ⟨rfl, -⟩ := encodeOfDecodeIsTheWord w i h
    exact encode_and_mask i
  · intro hm hsys
    cases i
    all_goals dsimp only [tableRow] at hm ⊢
    case sys nnn =>
      obtain ⟨hcls, hret⟩ := hsys ⟨nnn, rfl⟩
      rw [decode, fieldOp_of_mask_F000 hm]
      exact ⟨.sys (fieldNNN w), congrArg Except.ok (decodeClass0_sys hcls hret), rfl⟩
    case cls | ret =>
      obtain rfl := (mask_FFFF w).symm.trans hm
      exact ⟨_, rfl, rfl⟩
    case jp | call | seByte | sneByte | ldByte | addByte | ldI | jpV0 | rnd | drw =>
      rw [decode, fieldOp_of_mask_F000 hm]
      exact ⟨_, rfl, rfl⟩
    case seReg | ldReg | orReg | andReg | xorReg | addReg | subReg | shr | subn | shl | sneReg =>
      obtain ⟨hop, hn⟩ := fields_of_mask_F00F hm
      rw [decode, hop, hn]
      exact ⟨_, rfl, rfl⟩
    case skp | sknp | ldVxDt | ldVxK | ldDtVx | ldStVx | addIVx | ldFVx | ldBVx | ldMemVx | ldVxMem =>
      obtain ⟨hop, hnn⟩ := fields_of_mask_F0FF hm
      rw [decode, hop, hnn]
      exact ⟨_, rfl, rfl⟩

/-! ### Fixed words and the fault of an illegal one -/

/-- Settles O1: by evaluation. -/
theorem writtenWordsDecode : Obligations.WrittenWordsDecode :=
  ⟨rfl, rfl, rfl, rfl, rfl, rfl, rfl, rfl, rfl, rfl, rfl, rfl⟩

/-- Settles O9: the fetch succeeds, and the decoder answers an error. -/
theorem illegalWordRaisesDecodeError : Obligations.IllegalWordRaisesDecodeError := by
  intro s hrun hpc hd
  rw [executeCycle_running s hrun]
  cases he : decode (wordOfBytes (s.mem.read s.pc.toNat) (s.mem.read (s.pc.toNat + 1))) with
  | ok i => exact absurd he (hd i)
  | error e => exact runCycle_decodeError s _ e (fetch_ok s hpc) he

end Sys2Proof.Machine

/-! PROOF. The statements of the control family (40_control.md): the cycle and its fetch, SYS, RET, JP, CALL, the
compare-and-skip instructions and JP V0. -/

namespace Sys2Proof.Machine

/-! ### The cycle (R120-R122) -/

/-- Settles O6: a step is a cycle on the state without the strobe, and the cycle executes the word at PC. -/
theorem stepRunsTheDecodedInstruction : Obligations.StepRunsTheDecodedInstruction := by
  intro s i hrun hpc hd
  constructor
  · intro hidle
    exact (step_idle s hidle).trans (executeCycle_executes s i hrun hpc hd)
  · intro rest hstrobe
    exact (step_scheduled s .cycle rest hstrobe).trans (executeCycle_executes (s.setSchedule rest) i hrun hpc hd)

/-- A cycle in RUNNING whose fetch runs out of memory faults at PC, with no opcode (R121). -/
theorem executeCycle_fetchFault (s : State) (hrun : s.run = .running) (h : memSize ≤ s.pc.toNat + 1) :
    executeCycle s = .next (takeFault (.outOfBounds (max s.pc.toNat memSize)) s.pc none s) :=
  (executeCycle_running s hrun).trans (runCycle_fetchFault s h)

/-- Settles O8: of the two bytes the first out of memory is at max pc 4096, which is pc from 4096 on, and 4096 at 0xFFF. -/
theorem fetchOutOfRangeFaults : Obligations.FetchOutOfRangeFaults := by
  intro s hrun
  refine ⟨fetch_ok s, fun hpc => ?_, fun hpc => ?_⟩
  · rw [executeCycle_fetchFault s hrun (Nat.le_succ_of_le hpc), Nat.max_eq_left hpc]
    rfl
  · have hfirst : s.pc.toNat = 0xFFF := congrArg BitVec.toNat hpc
    rw [executeCycle_fetchFault s hrun (by rw [hfirst]), hfirst]
    rfl

/-! ### CALL and RET (R127, R131) -/

/-- A fault raised in the execute phase, as the statements write it (R272). -/
theorem takeFault_eq_faultedAt (e : Raise) (w : Word) (s : State) :
    takeFault e (s.pc - 2#16) (some w) s = faultedAt s e.kind w e.addr := rfl

/-- The word of CALL with its class and its address side by side (R92). -/
theorem encode_call (nnn : Addr) : encode (.call nnn) = 0x2000#16 ||| nnn.setWidth 16 :=
  BitVec.append_def 0x2#4 nnn

/-- Settles O20, by whether the stack is full. -/
theorem callPushesAndJumps : Obligations.CallPushesAndJumps := by
  intro nnn s
  constructor
  · intro hroom
    exact ⟨_, exec_call_ok nnn s hroom, rfl, zextAddr_toNat nnn, by simp [SameBut]⟩
  · intro hfull
    rw [exec_call_error nnn s hfull, takeFault_eq_faultedAt, encode_call]
    rfl

/-- Settles O21, by whether the stack is empty. -/
theorem retPopsIntoPc : Obligations.RetPopsIntoPc := by
  intro s
  constructor
  · intro l a hs
    exact ⟨_, exec_ret_ok s l a hs, rfl, rfl, by simp [SameBut]⟩
  · intro hs
    rw [exec_ret_error s hs, takeFault_eq_faultedAt]
    rfl

/-! ### SYS and the jumps (R125, R129, R141) -/

/-- Settles O22: the meaning of SYS answers the state it is given. -/
theorem sysIsANoOp : Obligations.SysIsANoOp :=
  fun _ _ => rfl

theorem setPc_sameBut (s : State) (p : Word) : SameBut [.pc] s (s.setPc p) := by
  simp [SameBut]

/-- Settles O23: neither zext_16(NNN) nor the sum of BNNN is reduced. -/
theorem jumpsSetPc : Obligations.JumpsSetPc := by
  intro nnn s
  exact ⟨⟨_, rfl, zextAddr_toNat nnn, setPc_sameBut s _⟩, ⟨_, rfl, jumpV0Target_toNat s nnn, setPc_sameBut s _⟩⟩

/-! ### The compare-and-skip instructions (R124, R133-R139) -/

theorem skipIf_sameBut (s : State) (c : Bool) : SameBut [.pc] s (s.skipIf c) := by
  simp [SameBut]

/-- PC after a skip if equal, the bytes compared as numbers (R133, R137). -/
theorem skipIf_beq_toNat (s : State) (a b : Byte) :
    (s.skipIf (a == b)).pc.toNat = if a.toNat = b.toNat then (s.pc.toNat + 2) % 65536 else s.pc.toNat := by
  simp only [skipIf_toNat, beq_iff_eq, BitVec.toNat_inj]

/-- PC after a skip if different, the bytes compared as numbers (R135, R139). -/
theorem skipIf_bne_toNat (s : State) (a b : Byte) :
    (s.skipIf (a != b)).pc.toNat = if a.toNat = b.toNat then s.pc.toNat else (s.pc.toNat + 2) % 65536 := by
  simp only [skipIf_toNat, bne_iff_ne, ne_eq, ite_not, BitVec.toNat_inj]

/-- Settles O24: two skip if equal and two if different, each with a register or a byte on the right. -/
theorem compareSkipsMovePc : Obligations.CompareSkipsMovePc := by
  intro x y nn s
  exact ⟨⟨_, rfl, skipIf_sameBut s _, skipIf_beq_toNat s (s.reg x) nn⟩,
    ⟨_, rfl, skipIf_sameBut s _, skipIf_bne_toNat s (s.reg x) nn⟩,
    ⟨_, rfl, skipIf_sameBut s _, skipIf_beq_toNat s (s.reg x) (s.reg y)⟩,
    ⟨_, rfl, skipIf_sameBut s _, skipIf_bne_toNat s (s.reg x) (s.reg y)⟩⟩

end Sys2Proof.Machine

/-! PROOF. The statements of the display family (41_display.md): CLS, DXYN with its collision flag, the same DXYN drawn
twice, and the instructions whose data block runs out of memory. -/

namespace Sys2Proof.Machine

/-! ### CLS (R150) -/

theorem pix_zero (k : Nat) : pix 0 k = false := BitVec.getLsbD_zero

/-- Settles O25: CLS writes the frame buffer with every bit 0. -/
theorem clsTurnsEveryCellOff : Obligations.ClsTurnsEveryCellOff :=
  fun _ => ⟨_, rfl, fun k _ => pix_zero k, by simp [SameBut]⟩

/-! ### DXYN (R151-R159) -/

/-- A set bit of the sprite that DXYN draws from s lands on a cell whose value in s is v (R153-R155). -/
def State.HitsCell (s : State) (x y : Reg) (n : Nat) (v : Bool) : Prop :=
  ∃ r c, r < n ∧ c < 8 ∧ (s.mem.read (s.i.toNat + r)).getLsbD (7 - c) = true ∧
    pix s.fb (((s.reg y).toNat + r) % 32 * 64 + ((s.reg x).toNat + c) % 64) = v

/-- VF as a flag that stands for a condition: 1 where the condition holds, and else 0 (R156). -/
theorem setReg_flagByte_vf (s : State) {c : Bool} {p : Prop} (h : c = true ↔ p) :
    (p → (s.setReg Reg.vf (flagByte c)).reg Reg.vf = 1#8) ∧
    (¬ p → (s.setReg Reg.vf (flagByte c)).reg Reg.vf = 0#8) := by
  rw [setReg_reg_same]
  constructor
  · intro hp
    rw [h.2 hp]
    rfl
  · intro hp
    rw [Bool.eq_false_iff.2 (mt h.1 hp)]
    rfl

/-- Settles O26, by what the drawing of the block at I leaves of each cell and of the flag. -/
theorem drwTogglesTheSpriteCells : Obligations.DrwTogglesTheSpriteCells := by
  intro x y n s hblock
  obtain ⟨hcollides, hclear⟩ := setReg_flagByte_vf (s.setFb _) (drawn_flag s x y n.val n.isLt)
  exact ⟨_, exec_drw_ok x y n s hblock, fun k _ => drawn_pix s x y n.val n.isLt k, hcollides, hclear,
    fun r hr => setReg_reg_ne _ Reg.vf r _ hr, by simp [SameBut]⟩

/-- A sprite of no rows leaves the frame buffer as it is and raises no flag (R157). -/
theorem drawn_no_rows (s : State) (x y : Reg) : s.drawn x y 0 = (s.fb, false) := rfl

/-- Settles O27: the block of no bytes is in memory wherever I points, and its drawing changes nothing. -/
theorem drwOfNoRowsClearsVf : Obligations.DrwOfNoRowsClearsVf := by
  intro x y s
  refine ⟨_, exec_drw_ok x y 0 s (.inl rfl), ?_, fun r hr => setReg_reg_ne _ Reg.vf r _ hr, ?_⟩
  · rw [setReg_reg_same]
    rfl
  · simp [SameBut, drawn_no_rows]

/-! ### The same DXYN twice (R161; log entry 8) -/

/-- The state t holds the frame buffer that DXYN draws from s, and the operands of DXYN as s holds them. -/
structure DrawnOnce (x y : Reg) (n : Nat) (s t : State) : Prop where
  mem : t.mem = s.mem
  i : t.i = s.i
  startColumn : t.reg x = s.reg x
  startRow : t.reg y = s.reg y
  fb : t.fb = (s.drawn x y n).1

theorem exec_drw_drawnOnce {x y : Reg} {n : Fin 16} {s t : State} (hblock : n.val = 0 ∨ s.i.toNat + n.val ≤ memSize)
    (h : exec (.drw x y n) s = .next t) (hx : t.reg x = s.reg x) (hy : t.reg y = s.reg y) :
    DrawnOnce x y n.val s t := by
  obtain rfl := Host.Outcome.next.inj ((exec_drw_ok x y n s hblock).symm.trans h)
  exact ⟨rfl, rfl, hx, hy, rfl⟩

/-- The second draw toggles the cells that the first has toggled. -/
theorem DrawnOnce.redraw_pix_iff {x y : Reg} {n : Nat} {s t : State} (h : DrawnOnce x y n s t) (hn : n < 16) (k : Nat) :
    pix (t.drawn x y n).1 k ≠ pix t.fb k ↔ pix t.fb k ≠ pix s.fb k := by
  rw [drawn_pix t x y n hn k, h.fb, drawn_pix s x y n hn k, h.mem, h.i, h.startColumn, h.startRow]

/-- Two draws of one sprite cancel out. -/
theorem DrawnOnce.redraw_fb {x y : Reg} {n : Nat} {s t : State} (h : DrawnOnce x y n s t) (hn : n < 16) :
    (t.drawn x y n).1 = s.fb := by
  refine BitVec.eq_of_getLsbD_eq fun k _ => ?_
  have htwice := h.redraw_pix_iff hn k
  show pix (t.drawn x y n).1 k = pix s.fb k
  revert htwice
  generalize pix (t.drawn x y n).1 k = second, pix t.fb k = first, pix s.fb k = before
  revert second first before
  decide

/-- A cell under a set sprite bit is on after the first draw exactly when it was off before. -/
theorem DrawnOnce.pix_of_hit {x y : Reg} {n r c : Nat} {s t : State} (h : DrawnOnce x y n s t) (hn : n < 16) (hr : r < n)
    (hc : c < 8) (hbit : (s.mem.read (s.i.toNat + r)).getLsbD (7 - c) = true) :
    pix t.fb (((s.reg y).toNat + r) % 32 * 64 + ((s.reg x).toNat + c) % 64) =
      !pix s.fb (((s.reg y).toNat + r) % 32 * 64 + ((s.reg x).toNat + c) % 64) := by
  rw [h.fb]
  exact Bool.eq_not_of_ne ((drawn_pix s x y n hn _).2 ⟨r, c, hr, hc, hbit, rfl⟩)

/-- The second draw collides exactly where a set bit landed on a cell that was off before the first (R156). -/
theorem DrawnOnce.redraw_flag {x y : Reg} {n : Nat} {s t : State} (h : DrawnOnce x y n s t) (hn : n < 16) :
    (t.drawn x y n).2 = true ↔ s.HitsCell x y n false := by
  rw [drawn_flag t x y n hn, h.mem, h.i, h.startColumn, h.startRow]
  refine exists_congr fun r => exists_congr fun c =>
    and_congr_right fun hr => and_congr_right fun hc => and_congr_right fun hbit => ?_
  rw [h.pix_of_hit hn hr hc hbit, Bool.not_eq_true']

/-- Settles O28: the second draw reads the operands of the first, so it cancels the first out. -/
theorem drawingTwiceRestoresTheFrame : Obligations.DrawingTwiceRestoresTheFrame := by
  intro x y n s t hblock h hx hy
  have honce := exec_drw_drawnOnce hblock h hx hy
  obtain ⟨hcollides, hclear⟩ := setReg_flagByte_vf (t.setFb _) (honce.redraw_flag n.isLt)
  exact ⟨_, exec_drw_ok x y n t (by rw [honce.i]; exact hblock), honce.redraw_fb n.isLt, hcollides, hclear⟩

/-- A sprite of one set bit at 0x300, and every cell on. -/
def allCellsOn : State :=
  { State.reset with i := 0x300#16, mem := [(0x300, 0x80#8)], fb := BitVec.allOnes 2048 }

theorem pix_allOnes {k : Nat} (hk : k < 2048) : pix (BitVec.allOnes 2048) k = true := by
  rw [pix, BitVec.getLsbD_allOnes]
  exact decide_eq_true hk

/-- Where every cell is on, a set bit lands on no cell that is off. -/
theorem allCellsOn_hits_no_off_cell (x y : Reg) (n : Nat) : ¬ allCellsOn.HitsCell x y n false := by
  rintro ⟨r, c, -, -, -, hoff⟩
  have hon : pix allCellsOn.fb (cellIndex ((allCellsOn.reg y).toNat + r) ((allCellsOn.reg x).toNat + c)) = true :=
    pix_allOnes (cellIndex_lt _ _)
  exact absurd hoff (by rw [Bool.not_eq_false]; exact hon)

/-- Refutes O29: with every cell on, the first draw turns the cells under the sprite off, and the second finds them off. -/
theorem not_secondDrawCollidesWheneverTheSpriteIsNotEmpty :
    ¬ Obligations.SecondDrawCollidesWheneverTheSpriteIsNotEmpty := by
  intro h
  have hblock : (1 : Fin 16).val = 0 ∨ allCellsOn.i.toNat + (1 : Fin 16).val ≤ 4096 := by decide
  obtain ⟨t, hfirst, -, -, -, hkept, -⟩ := drwTogglesTheSpriteCells 0 1 1 allCellsOn hblock
  have hx := hkept 0 (by decide)
  have hy := hkept 1 (by decide)
  obtain ⟨u, hsecond, -, -, hclear⟩ := drawingTwiceRestoresTheFrame 0 1 1 allCellsOn t hblock hfirst hx hy
  have hvf : u.reg Reg.vf = 1#8 := h 0 1 1 allCellsOn t u (by decide) hfirst hx hy hsecond ⟨0, by decide, by decide⟩
  rw [hclear (allCellsOn_hits_no_off_cell 0 1 1)] at hvf
  exact absurd hvf (by decide)

/-! ### Data blocks that run out of memory (R158, R214, R216, R219) -/

/-- Settles O40, instruction by instruction: its block faults at the first address out of memory. -/
theorem dataAccessOutOfRangeFaults : Obligations.DataAccessOutOfRangeFaults := by
  rintro i n s (⟨x, y, m, rfl, rfl, hrows⟩ | ⟨x, rfl, rfl⟩ | ⟨x, rfl | rfl, rfl⟩) hout
  · exact exec_drw_error x y m s hrows hout
  · exact exec_ldBVx_error x s hout
  · exact exec_ldMemVx_error x s hout
  · exact exec_ldVxMem_error x s hout

end Sys2Proof.Machine

/-! PROOF. The statements of the register and ALU family (42_alu.md): subtraction and shifts, loads and the immediate
addition, logic, addition with carry, and the masked random byte. -/

namespace Sys2Proof.Machine

/-! ### Results as numbers (R190) -/

/-- The difference of two bytes is that of the integers they stand for, reduced mod 256. -/
theorem sub_toNat_emod (a b : Byte) : (a - b).toNat = (((a.toNat : Int) - b.toNat) % 256).toNat := by
  have ha := a.isLt
  have hb := b.isLt
  rw [BitVec.toNat_sub]
  omega

/-- The shifted value, by the setting of SHIFT_QUIRK (R180). -/
theorem shiftSource_toNat (q : ShiftQuirk) (a b : Byte) :
    (shiftSource q a b).toNat = if q = .table then b.toNat else a.toNat := by
  cases q <;> rfl

/-- 8XY6 halves the value it shifts (R181). -/
theorem shiftSource_ushiftRight_toNat (q : ShiftQuirk) (a b : Byte) :
    (shiftSource q a b >>> 1).toNat = (if q = .table then b.toNat else a.toNat) / 2 := by
  rw [BitVec.toNat_ushiftRight, Nat.shiftRight_eq_div_pow, shiftSource_toNat]

/-- 8XYE doubles the value it shifts, mod 256 (R186). -/
theorem shiftSource_shiftLeft_toNat (q : ShiftQuirk) (a b : Byte) :
    (shiftSource q a b <<< 1).toNat = (if q = .table then b.toNat else a.toNat) * 2 % 256 := by
  rw [BitVec.toNat_shiftLeft, Nat.shiftLeft_eq, shiftSource_toNat]

/-! ### Results with a flag (R173-R186) -/

/-- Settles O33: the minuend and the subtrahend of 8XY7 are those of 8XY5 exchanged. -/
theorem subtractResultsAndFlags : Obligations.SubtractResultsAndFlags := by
  intro x y s
  exact ⟨⟨_, rfl, setRegFlag_resultAndFlag s x _ _ _ _ (sub_toNat_emod (s.reg x) (s.reg y)) (flagByte_decide _)⟩,
    ⟨_, rfl, setRegFlag_resultAndFlag s x _ _ _ _ (sub_toNat_emod (s.reg y) (s.reg x)) (flagByte_decide _)⟩⟩

/-- Settles O34: the result comes from the shifted value and the flag from Vx, each before any write. -/
theorem shiftResultsAndFlags : Obligations.ShiftResultsAndFlags := by
  intro x y s
  exact ⟨⟨_, rfl, setRegFlag_resultAndFlag s x _ _ _ _ (shiftSource_ushiftRight_toNat _ _ _) (shrFlag_toNat _)⟩,
    ⟨_, rfl, setRegFlag_resultAndFlag s x _ _ _ _ (shiftSource_shiftLeft_toNat _ _ _) (shlFlag_toNat _)⟩⟩

/-- Settles O31: a bitwise operation on bytes is the one on their numbers, and the flag is that of false. -/
theorem logicResultsClearVf : Obligations.LogicResultsClearVf := by
  intro x y s
  exact ⟨⟨_, rfl, setRegFlag_resultAndFlag s x _ _ _ _ (BitVec.toNat_or _ _) rfl⟩,
    ⟨_, rfl, setRegFlag_resultAndFlag s x _ _ _ _ (BitVec.toNat_and _ _) rfl⟩,
    ⟨_, rfl, setRegFlag_resultAndFlag s x _ _ _ _ (BitVec.toNat_xor _ _) rfl⟩⟩

/-- Settles O32: the carry is decided on the sum before it is reduced. -/
theorem addResultAndCarry : Obligations.AddResultAndCarry := by
  intro x y s
  exact ⟨_, rfl, setRegFlag_resultAndFlag s x _ _ _ _ (BitVec.toNat_add _ _) (flagByte_decide _)⟩

/-! ### Results without a flag (R170-R172, R187) -/

/-- What a write to Vx leaves as it was: the other registers, and every part of the state but the registers. -/
theorem setReg_frame (s : State) (x : Reg) (b : Byte) :
    (∀ r, r ≠ x → (s.setReg x b).reg r = s.reg r) ∧ SameBut [.v] s (s.setReg x b) :=
  ⟨fun r hr => setReg_reg_ne s x r b hr, by simp [SameBut]⟩

/-- Settles O30: each of the three is one write to Vx, whatever x is. -/
theorem loadsAndAddImmediate : Obligations.LoadsAndAddImmediate := by
  intro x y nn s
  refine ⟨⟨_, rfl, setReg_reg_same s x nn, setReg_frame s x nn⟩, ⟨_, rfl, ?_, setReg_frame s x _⟩,
    ⟨_, rfl, setReg_reg_same s x (s.reg y), setReg_frame s x _⟩⟩
  rw [setReg_reg_same, BitVec.toNat_add]

/-- A byte masked with NN has no bit outside NN. -/
theorem and_and_not_self (b nn : Byte) : b &&& nn &&& ~~~nn = 0#8 := by
  rw [BitVec.and_assoc, BitVec.and_not_self]
  exact BitVec.and_zero

/-- The draw takes the first byte that the host has put on the input (R50). -/
theorem drawByte_cons {s : State} {r : Byte} {rest : List Byte} (h : s.rand = r :: rest) : s.drawByte = r := by
  rw [State.drawByte, h]

/-- A draw from an empty input is free (R187; log entry 3). -/
theorem drawByte_nil {s : State} (h : s.rand = []) : s.drawByte = Config.freeByte s.draws := by
  rw [State.drawByte, h]

/-- Settles O35, by whether the host has put a byte on the input; the rest is said of any drawn byte. -/
theorem rndMasksTheDrawnByte : Obligations.RndMasksTheDrawnByte := by
  intro x nn s
  obtain ⟨hother, -⟩ := setReg_frame s.afterDraw x (s.drawByte &&& nn)
  refine ⟨_, rfl, fun r rest hr => ⟨?_, ?_⟩, fun hnone => ⟨?_, ?_⟩, ?_, rfl, hother, by simp [SameBut]⟩
  · rw [setReg_reg_same, drawByte_cons hr]
  · rw [setReg_rand, afterDraw_rand, hr, List.tail_cons]
  · rw [setReg_reg_same, drawByte_nil hnone]
  · rw [setReg_rand, afterDraw_rand, hnone, List.tail_nil]
  · rw [setReg_reg_same, and_and_not_self]

end Sys2Proof.Machine

/-! PROOF. The statements of the index and memory family (43_index_memory.md): the writes to I, the decimal digits, the
store and the load of a block of registers, and the pair of the two. -/

namespace Sys2Proof.Machine

/-! ### The writes to I (R210-R212) -/

theorem setI_sameBut (s : State) (w : Word) : SameBut [.i] s (s.setI w) := by
  simp [SameBut]

/-- I + Vx, reduced mod 2^16 (R211). -/
theorem add_setWidth_toNat (w : Word) (b : Byte) : (w + b.setWidth 16).toNat = (w.toNat + b.toNat) % 65536 := by
  rw [BitVec.toNat_add, BitVec.toNat_setWidth_of_le (by decide)]

/-- Settles O36: each of the three is one write to I. -/
theorem indexRegisterWrites : Obligations.IndexRegisterWrites := by
  intro nnn x s
  exact ⟨⟨_, rfl, zextAddr_toNat nnn, setI_sameBut s _⟩, ⟨_, rfl, add_setWidth_toNat s.i (s.reg x), setI_sameBut s _⟩,
    ⟨_, rfl, fontAddr_toNat (s.reg x), setI_sameBut s _⟩⟩

/-! ### A block in memory -/

theorem Memory.read_writeBytes_of_get {m : Memory} {a k : Nat} {bs : List Byte} {b : Byte} (hm : m.wf = true)
    (hr : a + bs.length ≤ memSize) (hk : bs[k]? = some b) : (m.writeBytes a bs).read (a + k) = b := by
  rw [Memory.read_writeBytes bs m a (a + k) hm hr, if_pos (Nat.le_add_right a k), Nat.add_sub_cancel_left, hk]
  rfl

theorem Memory.read_writeBytes_outside {m : Memory} {a c : Nat} {bs : List Byte} (hm : m.wf = true)
    (hr : a + bs.length ≤ memSize) (hc : ∀ k, k < bs.length → c ≠ a + k) : (m.writeBytes a bs).read c = m.read c := by
  rw [Memory.read_writeBytes bs m a c hm hr]
  split
  · next hle =>
    have hlen : bs.length ≤ c - a := Nat.le_of_not_lt fun hlt => hc (c - a) hlt (by omega)
    rw [List.getElem?_eq_none hlen]
    rfl
  · rfl

/-- The registers after a load: those the block reaches hold its bytes, the others are as they were (R219). -/
theorem setRegs_block_reg (s : State) (m : Memory) (a n : Nat) (r : Reg) :
    (s.setRegs (m.block a n)).reg r = if r.val < n then m.read (a + r.val) else s.reg r := by
  rw [setRegs_reg, Memory.block_get]
  split <;> rfl

/-! ### FX33 (R214) -/

theorem bcdDigits_length (b : Byte) : (bcdDigits b).length = 3 := rfl

theorem setMem_sameBut (s : State) (m : Memory) : SameBut [.mem] s (s.setMem m) := by
  simp [SameBut]

/-- A digit in the block at I, as a number: it fits in a byte. -/
theorem read_bcdDigits {m : Memory} {a k d : Nat} {b : Byte} (hm : m.wf = true) (hr : a + 3 ≤ memSize)
    (hk : (bcdDigits b)[k]? = some (BitVec.ofNat 8 d)) (hd : d < 256) :
    ((m.writeBytes a (bcdDigits b)).read (a + k)).toNat = d := by
  rw [Memory.read_writeBytes_of_get hm hr hk, BitVec.toNat_ofNat, Nat.mod_eq_of_lt hd]

/-- Settles O37: each digit is below 256, and the three of them are the bytes of the block at I. -/
theorem bcdStoresThreeDigits : Obligations.BcdStoresThreeDigits := by
  intro x s hm hr
  have hbyte := (s.reg x).isLt
  refine ⟨_, exec_ldBVx_ok x s hr, ?_, ?_, ?_, fun a h0 h1 h2 => ?_, setMem_sameBut s _⟩
  · exact read_bcdDigits (k := 0) hm hr rfl (by omega)
  · exact read_bcdDigits (k := 1) hm hr rfl (by omega)
  · exact read_bcdDigits (k := 2) hm hr rfl (by omega)
  · refine Memory.read_writeBytes_outside hm hr fun k hk => ?_
    rw [bcdDigits_length] at hk
    interval_cases k
    exacts [h0, h1, h2]

/-! ### FX55 and FX65 (R215-R219) -/

/-- Settles O38: the block at I is V0..Vx, and I advances after the store. -/
theorem storeRegistersWritesTheBlock : Obligations.StoreRegistersWritesTheBlock := by
  intro x s hm hr
  refine ⟨_, exec_ldMemVx_ok x s hr, fun k hk => ?_, fun a ha => ?_, advanceI_toNat _ _, by simp [SameBut]⟩
  · rw [advanceI_mem]
    exact read_writeBytes_regsUpTo s x k hm hr hk
  · rw [advanceI_mem]
    refine Memory.read_writeBytes_outside hm (by rwa [regsUpTo_length]) fun k hk => ?_
    rw [regsUpTo_length] at hk
    exact ha ⟨k, by omega⟩ (Nat.le_of_lt_succ hk)

/-- Settles O39: the load writes the registers that the block of x + 1 bytes reaches, and I advances after it. -/
theorem loadRegistersReadsTheBlock : Obligations.LoadRegistersReadsTheBlock := by
  intro x s hr
  refine ⟨_, exec_ldVxMem_ok x s hr, fun k hk => ?_, fun k hk => ?_, advanceI_toNat _ _, by simp [SameBut]⟩
  · rw [advanceI_reg, setRegs_block_reg, if_pos (Nat.lt_succ_of_le hk)]
    rfl
  · rw [advanceI_reg, setRegs_block_reg, if_neg (by omega)]

/-! ### FX55 then FX65 (R221; log entry 9) -/

/-- What holds of some next state holds of the next state. -/
theorem of_next {o : Answer} {P : State → Prop} {t : State} (h : ∃ u, o = .next u ∧ P u) (ht : o = .next t) : P t := by
  obtain ⟨u, hu, hp⟩ := h
  exact Host.Outcome.next.inj (hu.symm.trans ht) ▸ hp

/-- The state t holds V0..Vx of s in the block at I of s, and the registers of s. -/
structure Stored (x : Reg) (s t : State) : Prop where
  block : ∀ k : Reg, k.val ≤ x.val → t.mem.read (s.dataAddr k.val) = s.reg k
  regs : ∀ r, t.reg r = s.reg r

/-- What FX55 leaves for an FX65 after it: the block and the registers, the bytes above the block, and I. -/
theorem exec_ldMemVx_stored {x : Reg} {s t : State} (hm : s.mem.wf = true) (hr : s.i.toNat + x.val < 4096)
    (h : exec (.ldMemVx x) s = .next t) :
    Stored x s t ∧ (∀ a, s.i.toNat + x.val < a → t.mem.read a = s.mem.read a) ∧
      t.i.toNat = if s.cfg.lsAdvanceI = true then s.i.toNat + x.val + 1 else s.i.toNat := by
  obtain ⟨hblock, hother, hi, hregs, -⟩ := of_next (storeRegistersWritesTheBlock x s hm hr) h
  refine ⟨⟨hblock, hregs (by decide)⟩, fun a ha => hother a fun k hk => ?_, ?_⟩
  · rw [State.dataAddr]
    omega
  · rw [hi, Nat.mod_eq_of_lt (by omega)]

/-- A load from the block that FX55 wrote gives the registers back. -/
theorem Stored.load_restores {x : Reg} {s t u : State} (h : Stored x s t) (hi : t.i.toNat = s.i.toNat)
    (hr : s.i.toNat + x.val < 4096) (hu : exec (.ldVxMem x) t = .next u) (r : Reg) : u.reg r = s.reg r := by
  obtain ⟨hloaded, hkept, -⟩ := of_next (loadRegistersReadsTheBlock x t (by omega)) hu
  by_cases hx : r.val ≤ x.val
  · rw [hloaded r hx, State.dataAddr, hi]
    exact h.block r hx
  · rw [hkept r (Nat.lt_of_not_le hx), h.regs r]

/-- I after FX65 (R215). -/
theorem exec_ldVxMem_i {x : Reg} {s t : State} (hr : s.i.toNat + x.val < 4096) (h : exec (.ldVxMem x) s = .next t) :
    t.i.toNat = if s.cfg.lsAdvanceI = true then s.i.toNat + x.val + 1 else s.i.toNat := by
  obtain ⟨-, -, hi, -⟩ := of_next (loadRegistersReadsTheBlock x s hr) h
  rw [hi, Nat.mod_eq_of_lt (by omega)]

/-- Settles O41: an advancing load reads above the block just stored, and a load with I at A reads that block. -/
theorem storeThenLoadRoundTrip : Obligations.StoreThenLoadRoundTrip := by
  intro x s t u hm hr ht hu
  obtain ⟨hstored, habove, hti⟩ := exec_ldMemVx_stored hm hr ht
  have hcfg := exec_cfg _ s t ht
  refine ⟨fun hadv hend => ?_, fun hadv nnn t' u' hnnn ht' hu' => ?_, fun hadv => ?_⟩
  · rw [if_pos hadv] at hti
    have hfits : t.i.toNat + x.val < 4096 := by omega
    obtain ⟨hloaded, -⟩ := of_next (loadRegistersReadsTheBlock x t hfits) hu
    refine ⟨fun k hk => ?_, ?_⟩
    · rw [hloaded k hk, State.dataAddr, hti, habove _ (by omega)]
    · rw [exec_ldVxMem_i hfits hu, hcfg, if_pos hadv, hti]
      omega
  · obtain rfl : t.setI (zextAddr nnn) = t' := Host.Outcome.next.inj ht'
    have hti' : (t.setI (zextAddr nnn)).i.toNat = s.i.toNat := (zextAddr_toNat nnn).trans hnnn
    have hstored' : Stored x s (t.setI (zextAddr nnn)) := ⟨hstored.block, hstored.regs⟩
    refine ⟨hstored'.load_restores hti' hr hu', ?_⟩
    rw [exec_ldVxMem_i (by omega) hu', setI_cfg, hcfg, if_pos hadv, hti']
  · have hstay : ¬ s.cfg.lsAdvanceI = true := by simp [hadv]
    rw [if_neg hstay] at hti
    refine ⟨hstored.load_restores hti hr hu, BitVec.eq_of_toNat_eq ?_⟩
    rw [exec_ldVxMem_i (by omega) hu, hcfg, if_neg hstay, hti]

end Sys2Proof.Machine

/-! PROOF. The statements of the keypad and timer family (44_keypad_timers.md): the skips by a key, FX0A and the cycles
that wait for it, the moves between Vx and the timers, and the delay ticks. -/

namespace Sys2Proof.Machine

/-! ### FX0A and the cycle that waits for a key (R43, R244, R245) -/

theorem lowestKey_zero : lowestKey 0 = none :=
  (lowestKey_eq_none 0).2 fun _ => BitVec.getLsbD_zero

theorem setReg_keyByte_toNat (s : State) (x c : Reg) : ((s.setReg x (keyByte c)).reg x).toNat = c.val := by
  rw [setReg_reg_same, keyByte_toNat]

theorem setRun_sameBut (s : State) (r : RunState) : SameBut [.run] s (s.setRun r) := by
  simp [SameBut]

/-- Settles O43, by what LowestKey() finds: the key of the first clause, or none. -/
theorem keyLoadTakesTheLowestKeyOrWaits : Obligations.KeyLoadTakesTheLowestKeyOrWaits := by
  intro x s
  refine ⟨fun c hc hleast => ?_, fun hnone => ?_⟩
  · have hkey : lowestKey s.keys = some c := (lowestKey_eq_some s.keys c).2 ⟨hc, hleast⟩
    exact ⟨_, exec_ldVxK_key x s c hkey, setReg_keyByte_toNat s x c, setReg_frame s x (keyByte c)⟩
  · have hkey : lowestKey s.keys = none := hnone ▸ lowestKey_zero
    exact ⟨_, exec_ldVxK_wait x s hkey, rfl, setRun_sameBut s _⟩

theorem resumeWait_key (x : Reg) (s : State) (c : Reg) (h : lowestKey s.keys = some c) :
    resumeWait x s = (s.setReg x (keyByte c)).setRun .running := by
  rw [resumeWait, h]

theorem resumeWait_wait (x : Reg) (s : State) (h : lowestKey s.keys = none) : resumeWait x s = s := by
  rw [resumeWait, h]

/-- Settles O44: the cycle is resumeWait, whatever is scheduled after it. -/
theorem waitingCycleTakesAKeyOrChangesNothing : Obligations.WaitingCycleTakesAKeyOrChangesNothing := by
  intro x s hrun
  rw [executeCycle_waitKey s x hrun]
  refine ⟨fun c hc hleast => ?_, fun hnone => ?_⟩
  · have hkey : lowestKey s.keys = some c := (lowestKey_eq_some s.keys c).2 ⟨hc, hleast⟩
    obtain ⟨hother, -⟩ := setReg_frame s x (keyByte c)
    rw [resumeWait_key x s c hkey]
    exact ⟨_, rfl, setReg_keyByte_toNat s x c, rfl, hother, by simp [SameBut]⟩
  · rw [resumeWait_wait x s (hnone ▸ lowestKey_zero)]

/-! ### The delay ticks (R38, R249, R281) -/

theorem iterate_tick_toNat (n : Nat) (b : Byte) : (tick^[n] b).toNat = b.toNat - n := by
  induction n generalizing b with
  | zero => rfl
  | succ n ih =>
    rw [Function.iterate_succ_apply, ih, tick_toNat]
    omega

theorem step_tickDt (s : State) (l : List Event) :
    step (s.setSchedule (.tickDt :: l)) = .next ((s.setDt (tick s.dt)).setSchedule l) :=
  step_setSchedule_cons s .tickDt l

/-- The ticks use the schedule up and write DT only, in every run state. -/
theorem steps_tickDt (n : Nat) (s : State) :
    steps n (s.setSchedule (List.replicate n .tickDt)) = .next ((s.setDt (tick^[n] s.dt)).setSchedule []) := by
  induction n generalizing s with
  | zero => rfl
  | succ n ih =>
    rw [List.replicate_succ, steps_succ _ _ _ (step_tickDt s _), ih]
    rfl

/-- Settles O46: n ticks, by induction on n, leave DT n times counted down. -/
theorem ticksCountDownToZero : Obligations.TicksCountDownToZero := by
  intro n s h
  have hs : s.setSchedule (List.replicate n .tickDt) = s := h ▸ rfl
  have hsteps := steps_tickDt n s
  rw [hs] at hsteps
  exact ⟨_, hsteps, iterate_tick_toNat n s.dt, rfl, by simp [SameBut]⟩

/-! ### The skips by a key (R42, R240, R241) -/

/-- Key(c), with no key for a code above 0xF. -/
theorem keyPressed_iff (k : Keypad) (c : Nat) : keyPressed k c = true ↔ c ≤ 0xF ∧ k.getLsbD c = true :=
  ⟨fun h => ⟨Nat.le_of_lt_succ (BitVec.lt_of_getLsbD h), h⟩, fun h => h.2⟩

/-- Settles O42: each is a skip by Key(Vx), which is false of a code above 0xF. -/
theorem keySkipsMovePc : Obligations.KeySkipsMovePc := by
  intro x s
  refine ⟨⟨_, rfl, skipIf_sameBut s _, ?_⟩, ⟨_, rfl, skipIf_sameBut s _, ?_⟩⟩
  · simp only [skipIf_toNat, keyPressed_iff]
  · simp only [skipIf_toNat, Bool.not_eq_true', ← Bool.not_eq_true, ite_not, keyPressed_iff]

/-! ### The moves between Vx and the timers (R44, R243, R247, R248) -/

theorem setDt_sameBut (s : State) (b : Byte) : SameBut [.dt] s (s.setDt b) := by
  simp [SameBut]

theorem setSt_sameBut (s : State) (b : Byte) : SameBut [.st] s (s.setSt b) := by
  simp [SameBut]

/-- Settles O45: each of the three is one write, and sound_on reads ST after it. -/
theorem timerRegisterMoves : Obligations.TimerRegisterMoves := by
  intro x s
  exact ⟨⟨_, rfl, setReg_reg_same s x s.dt, setReg_frame s x s.dt⟩, ⟨_, rfl, rfl, setDt_sameBut s _⟩,
    ⟨_, rfl, rfl, soundOn_iff (s.setSt (s.reg x)), setSt_sameBut s _⟩⟩

end Sys2Proof.Machine

/-! PROOF. The statements of the exceptions family (60_exceptions.md): faults and their causes, the timer events, the end
of a run, and the executions that are fair to the tick agents. -/

namespace Sys2Proof.Machine

/-! ### No step stops (R272, R280) -/

/-- Settles O10: a step is a cycle or an event, and each answers a next state. -/
theorem everyStepAnswersNext : Obligations.EveryStepAnswersNext := by
  intro s
  cases hs : s.schedule with
  | nil => exact step_idle s hs ▸ executeCycle_next s
  | cons e rest => exact step_scheduled s e rest hs ▸ deliver_next e _

/-! ### Faults and their causes (R271-R273, R276) -/

/-- The instructions whose data block can run out of memory (R271). -/
def AccessesBlock (i : Instr) : Prop :=
  (∃ x y n, i = .drw x y n) ∨ ∃ x, i = .ldBVx x ∨ i = .ldMemVx x ∨ i = .ldVxMem x

/-- What an instruction can raise in its execute phase from s: RET on an empty stack, CALL on a full one, and a data
block at its first address, from I on, that is not below 4096 (R271, R276). -/
inductive RaisedBy (s : State) : Instr → Raise → Prop where
  | ret (hempty : s.stack = []) : RaisedBy s .ret .stackUnderflow
  | call (nnn : Addr) (hfull : s.cfg.stackDepth = some s.stack.length) : RaisedBy s (.call nnn) .stackOverflow
  | block (i : Instr) (hi : AccessesBlock i) : RaisedBy s i (.outOfBounds (max s.i.toNat memSize))

/-- An instruction that leaves a running core faulted has taken a fault of its own, and done nothing else (R10). -/
theorem exec_faulted_raisedBy {i : Instr} {s t : State} {info : FaultInfo} (h : exec i s = .next t)
    (hrun : s.run = .running) (hf : t.run = .faulted info) :
    ∃ e, RaisedBy s i e ∧ t = takeFault e (s.pc - 2#16) (some (encode i)) s := by
  cases i
  case ret =>
    obtain ⟨l, a, -, rfl⟩ | ⟨hempty, ht⟩ := exec_ret_cases s t h
    exacts [absurd hf (by simp [hrun]), ⟨_, .ret hempty, ht⟩]
  case call nnn =>
    obtain ⟨-, rfl⟩ | ⟨hfull, ht⟩ := exec_call_cases nnn s t h
    exacts [absurd hf (by simp [hrun]), ⟨_, .call nnn hfull, ht⟩]
  case drw x y n =>
    obtain ⟨-, rfl⟩ | ⟨-, -, ht⟩ := exec_drw_cases x y n s t h
    exacts [absurd hf (by simp [hrun]), ⟨_, .block _ (.inl ⟨x, y, n, rfl⟩), ht⟩]
  case ldBVx x =>
    obtain ⟨-, rfl⟩ | ⟨-, ht⟩ := exec_ldBVx_cases x s t h
    exacts [absurd hf (by simp [hrun]), ⟨_, .block _ (.inr ⟨x, .inl rfl⟩), ht⟩]
  case ldMemVx x =>
    obtain ⟨-, rfl⟩ | ⟨-, ht⟩ := exec_ldMemVx_cases x s t h
    exacts [absurd hf (by simp [hrun]), ⟨_, .block _ (.inr ⟨x, .inr (.inl rfl)⟩), ht⟩]
  case ldVxMem x =>
    obtain ⟨-, rfl⟩ | ⟨-, ht⟩ := exec_ldVxMem_cases x s t h
    exacts [absurd hf (by simp [hrun]), ⟨_, .block _ (.inr ⟨x, .inr (.inr rfl)⟩), ht⟩]
  case ldVxK x =>
    obtain ⟨c, -, rfl⟩ | ⟨-, rfl⟩ := exec_ldVxK_cases x s t h
    all_goals exact absurd hf (by simp [hrun])
  all_goals
    obtain rfl := Host.Outcome.next.inj h
    exact absurd hf (by simp [hrun])

/-- Settles O48, by the raise that the record comes from. -/
theorem faultsHaveTheirCauses : Obligations.FaultsHaveTheirCauses := by
  intro i s t info h hrun hf
  obtain ⟨e, hraised, rfl⟩ := exec_faulted_raisedBy h hrun hf
  obtain rfl := RunState.faulted.inj hf
  refine ⟨rfl, ?_⟩
  cases hraised with
  | ret hempty => exact .inl ⟨rfl, hempty, rfl, rfl⟩
  | call nnn hfull => exact .inr (.inl ⟨⟨nnn, rfl⟩, hfull, rfl, rfl⟩)
  | block i hi => exact .inr (.inr ⟨hi, rfl, _, rfl, Nat.le_max_right _ _, Nat.le_max_left _ _⟩)

/-- A cycle that leaves a running core faulted has taken a fault at PC, from the state before the fetch. -/
theorem executeCycle_faulted_at_pc {s t : State} {info : FaultInfo} (hrun : s.run = .running)
    (h : executeCycle s = .next t) (hf : t.run = .faulted info) : ∃ e w, t = takeFault e s.pc w s := by
  rw [executeCycle_running s hrun] at h
  obtain ⟨-, hc⟩ | ⟨-, w, -, ⟨-, -, hc⟩ | ⟨i, -, hc⟩⟩ := runCycle_cases s <;> rw [hc] at h
  · exact ⟨_, _, (Host.Outcome.next.inj h).symm⟩
  · exact ⟨_, _, (Host.Outcome.next.inj h).symm⟩
  · obtain ⟨e, -, rfl⟩ := exec_faulted_raisedBy h hrun hf
    refine ⟨e, some (encode i), ?_⟩
    rw [setPc_pc, pc_restored]
    rfl

/-- Settles O47: the fault is taken from the state before the fetch, with PC where it was. -/
theorem faultsArePrecise : Obligations.FaultsArePrecise := by
  intro s t info hrun h hf
  obtain ⟨e, w, rfl⟩ := executeCycle_faulted_at_pc hrun h hf
  obtain rfl := RunState.faulted.inj hf
  exact ⟨rfl, rfl⟩

/-! ### The timer events (R38, R49, R281) -/

/-- Settles O49: each event is one write to its timer. -/
theorem timerEventsChangeTheirTimerOnly : Obligations.TimerEventsChangeTheirTimerOnly := by
  intro s
  exact ⟨⟨_, rfl, tick_toNat s.dt, setDt_sameBut s _⟩, ⟨_, rfl, tick_toNat s.st, setSt_sameBut s _⟩,
    ⟨_, rfl, rfl, rfl, setSt_sameBut s _⟩⟩

/-! ### The idle self-jump (R290 (b)) -/

theorem selfJump_iff (s : State) :
    selfJump s = true ↔ s.pc.toNat + 1 < memSize ∧
      (wordOfBytes (s.mem.read s.pc.toNat) (s.mem.read (s.pc.toNat + 1))).toNat = 0x1000 + s.pc.toNat := by
  unfold selfJump
  by_cases h : s.pc.toNat + 1 < memSize
  · have hpc : s.pc.toNat < memSize := by omega
    simp [fetch_ok s h, h, hpc]
  · simp [fetch_error s (by omega), h]

/-- The word 0x1000 + p is the word of a jump to p (R129). -/
theorem eq_encode_jp {w p : Word} (hw : w.toNat = 0x1000 + p.toNat) (hp : p.toNat < memSize) :
    w = encode (.jp (p.setWidth 12)) := by
  refine BitVec.eq_of_toNat_eq ?_
  have hlow : (p.setWidth 12).toNat = p.toNat := Nat.mod_eq_of_lt hp
  show _ = (0x1#4 ++ p.setWidth 12).toNat
  rw [BitVec.toNat_append, hlow, hw]
  exact Nat.shiftLeft_add_eq_or_of_lt (show p.toNat < 2 ^ 12 from hp) 1

theorem zextAddr_setWidth {p : Word} (hp : p.toNat < memSize) : zextAddr (p.setWidth 12) = p :=
  BitVec.eq_of_toNat_eq ((zextAddr_toNat _).trans (Nat.mod_eq_of_lt hp))

theorem endOfRun_running (s : State) (h : s.run = .running) : endOfRun s = selfJump s := by
  rw [endOfRun, h]

/-- Settles O53: the word is a JP to PC, which puts PC back from where the fetch had moved it. -/
theorem idleSelfJumpRepeats : Obligations.IdleSelfJumpRepeats := by
  intro s hrun hself
  obtain ⟨hpc, hw⟩ := (selfJump_iff s).1 hself
  have hp : s.pc.toNat < memSize := by omega
  have hd := decodeOfEncodeIsTheInstruction (.jp (s.pc.setWidth 12)) rfl
  rw [← eq_encode_jp hw hp] at hd
  refine ⟨?_, (endOfRun_running s hrun).trans hself⟩
  rw [executeCycle_executes s _ hrun hpc hd]
  show Host.Outcome.next (s.setPc (zextAddr _)) = .next s
  rw [zextAddr_setWidth hp]
  rfl

/-! ### The end of a run (R290) -/

theorem endOfRun_faulted (s : State) (info : FaultInfo) (h : s.run = .faulted info) : endOfRun s = true := by
  rw [endOfRun, h]

theorem endOfRun_waitKey (s : State) (x : Reg) (h : s.run = .waitKey x) :
    endOfRun s = (s.keysExhausted && s.keys == 0) := by
  rw [endOfRun, h]

theorem Event.isKey_iff (e : Event) : e.isKey = true ↔ ∃ c, e = .keyEnable c ∨ e = .keyDisable c := by
  cases e <;> simp [Event.isKey]

theorem keysExhausted_iff (s : State) :
    s.keysExhausted = true ↔ ∀ c, .keyEnable c ∉ s.schedule ∧ .keyDisable c ∉ s.schedule := by
  simp only [State.keysExhausted, List.all_eq_true, Bool.not_eq_true', ← Bool.not_eq_true, Event.isKey_iff]
  constructor
  · intro h c
    exact ⟨fun hm => h _ hm ⟨c, .inl rfl⟩, fun hm => h _ hm ⟨c, .inr rfl⟩⟩
  · rintro h e hm ⟨c, rfl | rfl⟩
    exacts [(h c).1 hm, (h c).2 hm]

/-- The three kinds of end, by the run state (R290 (a)-(c)). -/
theorem endOfRun_iff (s : State) :
    endOfRun s = true ↔
      (∃ info, s.run = .faulted info) ∨ (s.run = .running ∧ selfJump s = true) ∨
      ∃ x, s.run = .waitKey x ∧ s.keys = 0 ∧ s.keysExhausted = true := by
  cases h : s.run with
  | faulted info => simp [endOfRun_faulted s info h]
  | running => simp [endOfRun_running s h]
  | waitKey x => simp [endOfRun_waitKey s x h, and_comm]

/-- The run from s first ends, for observation, after m steps, in t. -/
def EndsFirstAt (m : Nat) (s t : State) : Prop :=
  steps m s = .next t ∧ endOfRun t = true ∧ ∀ k u, k < m → steps k s = .next u → endOfRun u = false

theorem endsFirstAt_zero (s t : State) : EndsFirstAt 0 s t ↔ s = t ∧ endOfRun s = true := by
  constructor
  · rintro ⟨h, hend, -⟩
    obtain rfl := Host.Outcome.next.inj h
    exact ⟨rfl, hend⟩
  · rintro ⟨rfl, hend⟩
    exact ⟨rfl, hend, fun k u hk => absurd hk (Nat.not_lt_zero k)⟩

theorem endsFirstAt_succ {s s' : State} (h : step s = .next s') (m : Nat) (t : State) :
    EndsFirstAt (m + 1) s t ↔ endOfRun s = false ∧ EndsFirstAt m s' t := by
  unfold EndsFirstAt
  rw [steps_succ m s s' h]
  constructor
  · rintro ⟨hsteps, hend, hbefore⟩
    refine ⟨hbefore 0 s m.succ_pos rfl, hsteps, hend, fun k u hk hu => ?_⟩
    exact hbefore (k + 1) u (Nat.succ_lt_succ hk) ((steps_succ k s s' h).trans hu)
  · rintro ⟨hs, hsteps, hend, hbefore⟩
    refine ⟨hsteps, hend, fun k u hk hu => ?_⟩
    cases k with
    | zero => exact Host.Outcome.next.inj hu ▸ hs
    | succ k => exact hbefore k u (Nat.lt_of_succ_lt_succ hk) ((steps_succ k s s' h).symm.trans hu)

/-- At an end of the run, the run first ends at once. -/
theorem endsFirstAt_of_end {s : State} (h : endOfRun s = true) (m : Nat) (t : State) :
    EndsFirstAt m s t ↔ m = 0 ∧ s = t := by
  cases m with
  | zero => simp [endsFirstAt_zero, h]
  | succ m =>
    obtain ⟨s', hs'⟩ := everyStepAnswersNext s
    simp [endsFirstAt_succ hs', h]

theorem observed_eq_some_iff (n : Nat) (s t : State) : observed n s = some t ↔ ∃ m, m ≤ n ∧ EndsFirstAt m s t := by
  induction n generalizing s with
  | zero =>
    cases h : endOfRun s with
    | true => simp [observed_of_end 0 s h, endsFirstAt_zero, h]
    | false => simp [observed_zero s h, endsFirstAt_zero, h]
  | succ n ih =>
    cases h : endOfRun s with
    | true => simp [observed_of_end _ s h, endsFirstAt_of_end h]
    | false =>
      obtain ⟨s', hs'⟩ := everyStepAnswersNext s
      rw [observed_succ n s s' h hs', ih s']
      constructor
      · rintro ⟨m, hm, hends⟩
        exact ⟨m + 1, Nat.succ_le_succ hm, (endsFirstAt_succ hs' m t).2 ⟨h, hends⟩⟩
      · rintro ⟨m, hm, hends⟩
        cases m with
        | zero => simp [endsFirstAt_zero, h] at hends
        | succ m => exact ⟨m, Nat.le_of_succ_le_succ hm, ((endsFirstAt_succ hs' m t).1 hends).2⟩

/-- Settles O60: the three kinds by the run state, and the first end by induction on the bound. -/
theorem theFirstEndOfTheRunIsObserved : Obligations.TheFirstEndOfTheRunIsObserved := by
  intro s
  refine ⟨?_, fun n t => observed_eq_some_iff n s t⟩
  rw [endOfRun_iff, selfJump_iff]
  simp only [keysExhausted_iff]

/-! ### Executions from any events (R282, R286) -/

/-- The state after event e; the last two answers never come (deliver_next). -/
def State.afterEvent (s : State) (e : Event) : State :=
  match deliver e (s.setSchedule []) with
  | .next t => t
  | .fault _ => s
  | .refused _ => s

theorem deliver_afterEvent (e : Event) (s : State) : deliver e (s.setSchedule []) = .next (s.afterEvent e) := by
  obtain ⟨t, ht⟩ := deliver_next e (s.setSchedule [])
  rw [State.afterEvent, ht]

/-- The state after the first n events of a sequence. -/
def State.afterEvents (s : State) (event : Nat → Event) (n : Nat) : State :=
  match n with
  | 0 => s
  | n + 1 => (s.afterEvents event n).afterEvent (event n)

/-- The execution from s with the given events. -/
def Execution.ofEvents (s : State) (event : Nat → Event) : Execution where
  state := s.afterEvents event
  event := event

theorem ofEvents_follows (s : State) (event : Nat → Event) : (Execution.ofEvents s event).Follows := fun n =>
  (step_setSchedule_cons _ (event n) []).trans (deliver_afterEvent (event n) (s.afterEvents event n))

/-- The events of a list, and after them the two ticks in turn. -/
def thenTicks (l : List Event) (n : Nat) : Event := l[n]?.getD (if n % 2 = 0 then .tickDt else .tickSt)

theorem thenTicks_after {l : List Event} {n : Nat} (h : l.length ≤ n) :
    thenTicks l n = if n % 2 = 0 then .tickDt else .tickSt := by
  rw [thenTicks, List.getElem?_eq_none h, Option.getD_none]

theorem thenTicks_fair (s : State) (l : List Event) : (Execution.ofEvents s (thenTicks l)).Fair := by
  refine ⟨fun n => ⟨2 * (n + l.length), by omega, ?_⟩, fun n => ⟨2 * (n + l.length) + 1, by omega, ?_⟩⟩
  · exact (thenTicks_after (by omega)).trans (if_pos (by omega))
  · exact (thenTicks_after (by omega)).trans (if_neg (by omega))

/-- Settles O58: after the list the two ticks take turns. -/
theorem anyInterleavingBeginsAFairExecution : Obligations.AnyInterleavingBeginsAFairExecution := by
  intro s l
  refine ⟨.ofEvents s (thenTicks l), ofEvents_follows s _, thenTicks_fair s l, rfl, fun k e hk => ?_⟩
  show thenTicks l k = e
  rw [thenTicks, hk, Option.getD_some]

/-! ### Timers run down (R281, R282) -/

/-- A number that never rises from n on, and infinitely often falls by 1 if it can, reaches 0. -/
theorem exists_eq_zero_of_recurring_decrease (f : Nat → Nat) (n : Nat) (hle : ∀ m, n ≤ m → f (m + 1) ≤ f m)
    (hdec : ∀ k, ∃ m, k ≤ m ∧ f (m + 1) = f m - 1) : ∃ m, n ≤ m ∧ f m = 0 := by
  induction hv : f n using Nat.strong_induction_on generalizing n with
  | _ v ih =>
    obtain ⟨m, hnm, hm⟩ := hdec n
    have hfm : f m ≤ f n := Nat.rel_of_forall_rel_succ_of_le_of_le (· ≥ ·) hle le_rfl hnm
    by_cases hzero : f m = 0
    · exact ⟨m, hnm, hzero⟩
    · obtain ⟨k, hk, hfk⟩ := ih (f (m + 1)) (by omega) (m + 1) (fun j hj => hle j (by omega)) rfl
      exact ⟨k, by omega, hfk⟩

/-- The timers after a reset, loaded or refused: 0, or as they were (R51, R314). -/
theorem resetRom_timers_le (rom : List Byte) (s : State) :
    ((resetRom rom s).getD s).dt.toNat ≤ s.dt.toNat ∧ ((resetRom rom s).getD s).st.toNat ≤ s.st.toNat := by
  by_cases hl : rom.length ≤ romMax
  · rw [resetRom_ok rom s hl]
    exact ⟨Nat.zero_le _, Nat.zero_le _⟩
  · rw [resetRom_refused rom s hl]
    exact ⟨le_rfl, le_rfl⟩

theorem tick_le (b : Byte) : (tick b).toNat ≤ b.toNat := by
  rw [tick_toNat]
  exact Nat.sub_le _ _

/-- No event but a cycle raises a timer. -/
theorem deliver_timers_le {e : Event} {s t : State} (h : deliver e s = .next t) (hne : e ≠ .cycle) :
    t.dt.toNat ≤ s.dt.toNat ∧ t.st.toNat ≤ s.st.toNat := by
  obtain ⟨he, -⟩ | ⟨-, rfl⟩ | ⟨-, rfl⟩ | ⟨c, -, rfl⟩ | ⟨c, -, rfl⟩ | ⟨-, rfl⟩ | ⟨b, -, rfl⟩ | ⟨rom, -, rfl⟩ :=
    deliver_cases e s t h
  · exact absurd he hne
  · exact ⟨tick_le s.dt, le_rfl⟩
  · exact ⟨le_rfl, tick_le s.st⟩
  · exact ⟨le_rfl, le_rfl⟩
  · exact ⟨le_rfl, le_rfl⟩
  · exact ⟨le_rfl, Nat.zero_le _⟩
  · exact ⟨le_rfl, le_rfl⟩
  · exact resetRom_timers_le rom s

section
variable {x : Execution} (hx : x.Follows)
include hx

theorem Execution.Follows.timers_le {m : Nat} (hne : x.event m ≠ .cycle) :
    (x.state (m + 1)).dt.toNat ≤ (x.state m).dt.toNat ∧ (x.state (m + 1)).st.toNat ≤ (x.state m).st.toNat :=
  deliver_timers_le (s := (x.state m).setSchedule []) (hx.deliver m) hne

theorem Execution.Follows.tickDt {m : Nat} (hm : x.event m = .tickDt) : (x.state (m + 1)).dt = tick (x.state m).dt := by
  have h := hx.deliver m
  rw [hm] at h
  exact congrArg State.dt (Host.Outcome.next.inj h).symm

theorem Execution.Follows.tickSt {m : Nat} (hm : x.event m = .tickSt) : (x.state (m + 1)).st = tick (x.state m).st := by
  have h := hx.deliver m
  rw [hm] at h
  exact congrArg State.st (Host.Outcome.next.inj h).symm

end

/-- A timer that no event raises from n on, and whose tick recurs, reaches 0. -/
theorem Execution.timer_reaches_zero {x : Execution} (timer : State → Byte) {e : Event} (n : Nat) (hrec : x.Recurs e)
    (hcycle : ∀ m, n ≤ m → x.event m = .cycle → timer (x.state (m + 1)) = timer (x.state m))
    (hle : ∀ m, x.event m ≠ .cycle → (timer (x.state (m + 1))).toNat ≤ (timer (x.state m)).toNat)
    (htick : ∀ m, x.event m = e → timer (x.state (m + 1)) = tick (timer (x.state m))) :
    ∃ m, n ≤ m ∧ timer (x.state m) = 0#8 := by
  have hmono : ∀ m, n ≤ m → (timer (x.state (m + 1))).toNat ≤ (timer (x.state m)).toNat := by
    intro m hnm
    by_cases hc : x.event m = .cycle
    · rw [hcycle m hnm hc]
    · exact hle m hc
  have hdec : ∀ k, ∃ m, k ≤ m ∧ (timer (x.state (m + 1))).toNat = (timer (x.state m)).toNat - 1 := by
    intro k
    obtain ⟨m, hkm, hm⟩ := hrec k
    exact ⟨m, hkm, by rw [htick m hm, tick_toNat]⟩
  obtain ⟨m, hnm, hm⟩ := exists_eq_zero_of_recurring_decrease (fun m => (timer (x.state m)).toNat) n hmono hdec
  exact ⟨m, hnm, BitVec.eq_of_toNat_eq hm⟩

/-- Settles O59: from n on no event raises the timer, and by fairness its tick recurs. -/
theorem fairExecutionsRunTheTimersDown : Obligations.FairExecutionsRunTheTimersDown := by
  rintro x n hx ⟨hfairDt, hfairSt⟩
  constructor
  · intro hcycle
    exact x.timer_reaches_zero State.dt n hfairDt hcycle (fun _ hm => (hx.timers_le hm).1) fun _ hm => hx.tickDt hm
  · intro hcycle
    exact x.timer_reaches_zero State.st n hfairSt hcycle (fun _ hm => (hx.timers_le hm).2) fun _ hm => hx.tickSt hm

end Sys2Proof.Machine

/-! PROOF. The statement of the reset family (70_reset_and_hazards.md): which ROMs load, and what a refused reset
changes. -/

namespace Sys2Proof.Machine

theorem romLoads_iff (rom : List Byte) : romLoads rom = true ↔ rom.length ≤ romMax := decide_eq_true_iff

theorem deliver_reset_refused (rom : List Byte) (s : State) (h : ¬ rom.length ≤ romMax) :
    deliver (.reset rom) s = .next s := by
  rw [deliver, resetRom_refused rom s h]
  rfl

/-- After a load, memory holds each byte of the ROM at its place from 0x200 on (R310). -/
theorem resetMem_read_rom {c : Config} {rom : List Byte} {k : Nat} {b : Byte} (hc : c.wf = true)
    (hl : rom.length ≤ romMax) (hb : rom[k]? = some b) : (resetMem c rom).read (romBase + k) = b := by
  rw [resetMem_read c rom _ hc hl, if_pos (Nat.le_add_right _ _), Nat.add_sub_cancel_left, hb, Option.getD_some]

/-- Settles O55: the report tests the length that resetRom tests. -/
theorem tooLongRomIsRefused : Obligations.TooLongRomIsRefused := by
  intro rom s
  refine ⟨?_, ?_, ?_⟩
  · rw [romLoads_iff]
    show rom.length ≤ 3584 ↔ 0x200 + rom.length ≤ 4096
    omega
  · intro hload hc
    have hl := (romLoads_iff rom).1 hload
    exact ⟨_, deliver_reset_ok rom s hl, rfl, rfl, fun _ _ hb => resetMem_read_rom hc hl hb⟩
  · intro hload
    exact deliver_reset_refused rom s (mt (romLoads_iff rom).2 (Bool.eq_false_iff.1 hload))

end Sys2Proof.Machine
